-- ==== Sys2Proof/Word.lean ====
section
/-! DEFINITION. The bit-vector types of the BCE and the access widths. -/

namespace Sys2Proof

/-- One byte of KEY, REC or SBOX. -/
abbrev Byte := BitVec 8

/-- A 64-bit register, operand or bus value (10_state R22); narrower words stand zero-extended in it (00_scope R12). -/
abbrev Word := BitVec 64

/-- A byte offset in the BCE window (20_memory R45). -/
abbrev Offset := BitVec 21

/-- The sizes 1, 2, 4 and 8 bytes: a host access's width (00_scope R14) and SUBKEY's window word size (30_encoding R67). -/
inductive Width where
  | w1 | w2 | w4 | w8
  deriving DecidableEq, Repr

/-- How many bytes a width is. -/
def Width.bytes : Width → Nat
  | .w1 => 1
  | .w2 => 2
  | .w4 => 4
  | .w8 => 8

end Sys2Proof
end

