-- ==== Sys2Proof/Syntax.lean ====
section
/-! DEFINITION. The commands of the BCE, one constructor per row of spec/opcode_table.json. -/

namespace Sys2Proof

/-- The seven commands of the opcode map (30_encoding R69). The operands are in ARG0, ARG1 and REC (R72); only SUBKEY
carries one in the command word, its word size `wb = 2^WSEL`. -/
inductive Instr where
  | nop
  | lock
  | hash
  | subkey (wb : Width)
  | xorwin
  | cipher
  | cipherRec
  deriving DecidableEq, Repr

end Sys2Proof
end

