-- ==== Sys2Proof/Decode.lean ====
section
/-! DEFINITION. The command decoder (30_encoding R67 to R70, R76) and, after it, the encoder (R75). -/

namespace Sys2Proof

/-- Why a CTRL value or a run of bytes is no command. -/
inductive Reserved where
  /-- RSV [63:6] is not 0 (30_encoding R70 (b)). -/
  | rsvNotZero
  /-- OPC [3:0] is 0x7 to 0xF (30_encoding R70 (a)). -/
  | opcode
  /-- WSEL [5:4] is not 0 and OPC is not SUBKEY's (30_encoding R70 (c)). -/
  | wselNotZero
  /-- Fewer than the eight bytes of a CTRL write (30_encoding R68). -/
  | truncated
  deriving DecidableEq, Repr

/-- OPC, bits [3:0] of a CTRL value (30_encoding R67). -/
def opcField (v : Word) : BitVec 4 := v.extractLsb' 0 4

/-- WSEL, bits [5:4] of a CTRL value (30_encoding R67). -/
def wselField (v : Word) : BitVec 2 := v.extractLsb' 4 2

/-- RSV, bits [63:6] of a CTRL value (30_encoding R67). -/
def rsvField (v : Word) : BitVec 58 := v.extractLsb' 6 58

/-- The window word size that WSEL selects, `wb = 2^WSEL` (30_encoding R67). -/
def widthOfWsel (ws : BitVec 2) : Width :=
  if ws = 0 then .w1 else if ws = 1 then .w2 else if ws = 2 then .w4 else .w8

/-- The opcode map of 30_encoding R69: the command of an opcode, WSEL read by SUBKEY only (R71). -/
def commandOf (opc : BitVec 4) (ws : BitVec 2) : Option Instr :=
  if opc = 0x0 then some .nop
  else if opc = 0x1 then some .lock
  else if opc = 0x2 then some .hash
  else if opc = 0x3 then some (.subkey (widthOfWsel ws))
  else if opc = 0x4 then some .xorwin
  else if opc = 0x5 then some .cipher
  else if opc = 0x6 then some .cipherRec
  else none

/-- The command of a 64-bit CTRL value, or the reason it is reserved (30_encoding R69, R70, R73). -/
def decodeWord (v : Word) : Except Reserved Instr :=
  if rsvField v ≠ 0 then .error .rsvNotZero
  else
    match commandOf (opcField v) (wselField v) with
    | none => .error .opcode
    | some i => if opcField v ≠ 0x3 ∧ wselField v ≠ 0 then .error .wselNotZero else .ok i

/-- The command in the first eight bytes, lowest address first (20_memory R48 (b)), and the bytes after it. -/
def decode : List Byte → Except Reserved (Instr × List Byte)
  | b0 :: b1 :: b2 :: b3 :: b4 :: b5 :: b6 :: b7 :: rest =>
    match decodeWord (b7 ++ b6 ++ b5 ++ b4 ++ b3 ++ b2 ++ b1 ++ b0 : BitVec (8 + 8 + 8 + 8 + 8 + 8 + 8 + 8)) with
    | .ok i => .ok (i, rest)
    | .error e => .error e
  | _ => .error .truncated

/-- The WSEL that selects a window word size (30_encoding R67). -/
def wselOfWidth : Width → BitVec 2
  | .w1 => 0
  | .w2 => 1
  | .w4 => 2
  | .w8 => 3

/-- The opcode of a command (30_encoding R69). -/
def Instr.opc : Instr → BitVec 4
  | .nop => 0x0
  | .lock => 0x1
  | .hash => 0x2
  | .subkey _ => 0x3
  | .xorwin => 0x4
  | .cipher => 0x5
  | .cipherRec => 0x6

/-- The WSEL of a command: 0 but for SUBKEY (30_encoding R69, R71). -/
def Instr.wsel : Instr → BitVec 2
  | .subkey wb => wselOfWidth wb
  | .nop => 0
  | .lock => 0
  | .hash => 0
  | .xorwin => 0
  | .cipher => 0
  | .cipherRec => 0

/-- The CTRL value of a command: RSV 0, WSEL and OPC in their fields (30_encoding R67, R75). -/
def encodeWord (i : Instr) : Word := (0#58 ++ i.wsel ++ i.opc : BitVec (58 + 2 + 4))

/-- The eight bytes of a CTRL value, lowest address first (20_memory R48). -/
def ctrlBytes (v : Word) : List Byte :=
  [v.extractLsb' 0 8, v.extractLsb' 8 8, v.extractLsb' 16 8, v.extractLsb' 24 8,
   v.extractLsb' 32 8, v.extractLsb' 40 8, v.extractLsb' 48 8, v.extractLsb' 56 8]

/-- The bytes of a command, as a CTRL write carries them (30_encoding R68). -/
def encode (i : Instr) : List Byte := ctrlBytes (encodeWord i)

/-- The instruction the decoder reads from a table word of `nbits` bits, the bits above them 0. -/
def decodeTableWord (nbits w : Nat) : Option Instr :=
  match decode (ctrlBytes (BitVec.ofNat 64 (w % 2 ^ nbits))) with
  | .ok (i, _) => some i
  | .error _ => none

end Sys2Proof
end

