-- ==== Sys2Proof/Machine/Bytes.lean ====
section
/-! DEFINITION. Little-endian words and their bytes (00_scope R13, 20_memory R48). -/

namespace Sys2Proof.Machine

/-- `le(b_0 .. b_{n-1})` of 00_scope R13, for at most eight bytes: the first byte is bits [7:0]. -/
def le : List Byte → Word
  | [] => 0
  | b :: bs => (le bs <<< 8) ||| b.setWidth 64

/-- The low `n` bytes of a word, byte `k` being its bits `[8k+7:8k]` (20_memory R48). -/
def bytesOf : Nat → Word → List Byte
  | 0, _ => []
  | n + 1, v => v.setWidth 8 :: bytesOf n (v >>> 8)

end Sys2Proof.Machine
end

