-- ==== Sys2Proof/Config.lean ====
section
/-! DEFINITION. The elaboration parameters of a BCE, and the free ones of the BCE that `State.reset` describes. -/

namespace Sys2Proof

/-- The configuration record of 00_scope R9, before its constraints are checked (Machine/Elaborate.lean checks them). The
derived parameters W_BITS, IDX_BITS and REC_BYTES are functions of it. -/
structure Params where
  /-- W_BYTES, the word size of the datapath. -/
  wBytes : Nat
  /-- A, the required alignment of a block's words. -/
  align : Nat
  /-- L, the words per block. -/
  blockWords : Nat
  /-- BLOCK_BYTES, the payload bytes per block. -/
  blockBytes : Nat
  /-- IDX_BYTES, the index width. -/
  idxBytes : Nat
  /-- KEY_BYTES, the size N of the key store. -/
  keyBytes : Nat
  /-- USIZE_BITS, the width of the `usize` offset. -/
  usizeBits : Nat
  /-- T_MOD, the cycles of the reduce stage (70_reset_and_hazards R161). -/
  tMod : Nat
  /-- Which 2 MiB slot of the host's address space holds the window: BCE_BASE is `0x200000 * baseSlot`, so that it is
  aligned as 20_memory R45 asks. -/
  baseSlot : Nat
  /-- SBOX, the substitution table (10_state R40). -/
  sbox : Vector Byte 256
  deriving DecidableEq, Repr, Inhabited

/-- The parameters that the BCE of `State.reset` was elaborated from: open in the spec (92_eei_decisions, open
parameters), so free here; nothing can evaluate them (notes/assumptions/2.md). -/
opaque Config.given : Params

end Sys2Proof
end

