-- ==== Sys2Proof/Machine/Elaborate.lean ====
section
/-! DEFINITION. Elaboration: the constraints of 00_scope R9, refused by name, and the configurations that meet them. -/

namespace Sys2Proof

/-- KE(wb), the key words of `wb` bytes in the key store; a trailing part word is not counted (00_scope R11). -/
def Params.keyElements (p : Params) (wb : Nat) : Nat := p.keyBytes / wb

/-- REC_BYTES (00_scope R9, 42_cipher R105). -/
def Params.recBytes (p : Params) : Nat := p.idxBytes + p.blockBytes

/-- IDX_BITS (00_scope R9). -/
def Params.idxBits (p : Params) : Nat := 8 * p.idxBytes

/-- W_BITS (00_scope R9). -/
def Params.wBits (p : Params) : Nat := 8 * p.wBytes

/-- MAXI, the number of start positions of the datapath's window (42_cipher R99). -/
def Params.maxIndex (p : Params) : Nat := p.keyElements p.wBytes - p.blockWords + 1

/-- BCE_BASE, the window's base address in the host's space (20_memory R45). -/
def Params.base (p : Params) : Nat := 0x200000 * p.baseSlot

/-- The offset the platform passes to the BCE for a host address, if the address is in the window (20_memory R45). -/
def Params.offsetOf (p : Params) (hostAddr : Nat) : Option Offset :=
  if p.base ≤ hostAddr ∧ hostAddr < p.base + 0x200000 then some (BitVec.ofNat 21 (hostAddr - p.base)) else none

/-- The constraint of 00_scope R9 that a refused configuration breaks. -/
inductive ConfigError where
  /-- W_BYTES is not 1, 2, 4 or 8. -/
  | wordSize
  /-- A is not W_BYTES. -/
  | alignment
  /-- L is not in 1 .. 65535. -/
  | blockLength
  /-- BLOCK_BYTES is not L * W_BYTES. -/
  | blockSize
  /-- IDX_BYTES is not 4 or 8. -/
  | indexSize
  /-- IDX_BYTES is not a multiple of W_BYTES. -/
  | indexAlignment
  /-- KEY_BYTES is not in 1 .. 0x100000. -/
  | keySize
  /-- L exceeds KE(W_BYTES): the window is longer than the key. -/
  | windowLength
  /-- REC_BYTES exceeds 0x1000. -/
  | recordSize
  /-- SBOX is no permutation of the bytes. -/
  | sboxNotPermutation
  /-- USIZE_BITS is not 64. -/
  | usizeWidth
  /-- T_MOD is 0. -/
  | reduceCycles
  deriving DecidableEq, Repr

/-- The first constraint of 00_scope R9 that the parameters break, in the order of its table (notes/assumptions/13.md). -/
def Params.error? (p : Params) : Option ConfigError :=
  if ¬ (p.wBytes = 1 ∨ p.wBytes = 2 ∨ p.wBytes = 4 ∨ p.wBytes = 8) then some .wordSize
  else if p.align ≠ p.wBytes then some .alignment
  else if ¬ (1 ≤ p.blockWords ∧ p.blockWords ≤ 65535) then some .blockLength
  else if p.blockBytes ≠ p.blockWords * p.wBytes then some .blockSize
  else if ¬ (p.idxBytes = 4 ∨ p.idxBytes = 8) then some .indexSize
  else if p.idxBytes % p.wBytes ≠ 0 then some .indexAlignment
  else if ¬ (1 ≤ p.keyBytes ∧ p.keyBytes ≤ 0x100000) then some .keySize
  else if ¬ p.blockWords ≤ p.keyElements p.wBytes then some .windowLength
  else if ¬ p.recBytes ≤ 0x1000 then some .recordSize
  else if ¬ p.sbox.toList.Nodup then some .sboxNotPermutation
  else if p.usizeBits ≠ 64 then some .usizeWidth
  else if p.tMod = 0 then some .reduceCycles
  else none

/-- A configuration that is hardware: one that meets every constraint of 00_scope R9. State holds one of these, so no
state and no run exists for any other (60_exceptions R144). -/
structure Config extends Params where
  ok : toParams.error? = none
  deriving DecidableEq, Repr

/-- Elaboration: the hardware with these parameters, or the name of the constraint they break (00_scope R9, 60_exceptions
R144). -/
def elaborate (p : Params) : Except ConfigError Config :=
  match h : p.error? with
  | none => .ok { toParams := p, ok := h }
  | some e => .error e

/-- CFG_SMALL of 00_scope R10, with KEY_BYTES and SBOX, which stay open in it. T_MOD is its default (R9). BCE_BASE, which R10 does
not give and 20_memory R66 leaves open, is slot 0: DESIGN CHOICE, notes/assumptions/20.md. -/
def Params.small (keyBytes : Nat) (sbox : Vector Byte 256) : Params :=
  { wBytes := 4, align := 4, blockWords := 7, blockBytes := 28, idxBytes := 4, keyBytes := keyBytes, usizeBits := 64,
    tMod := 1, baseSlot := 0, sbox := sbox }

/-- CFG_LARGE of 00_scope R10, with KEY_BYTES and SBOX, which stay open in it. T_MOD and BCE_BASE are as in `Params.small`: the base
slot 0 is a DESIGN CHOICE, notes/assumptions/20.md. -/
def Params.large (keyBytes : Nat) (sbox : Vector Byte 256) : Params :=
  { wBytes := 8, align := 8, blockWords := 31, blockBytes := 248, idxBytes := 8, keyBytes := keyBytes, usizeBits := 64,
    tMod := 1, baseSlot := 0, sbox := sbox }

/-- A table without repeats and a key store of one window or more make CFG_SMALL hardware. -/
theorem Params.small_ok {keyBytes : Nat} {sbox : Vector Byte 256} (h1 : 28 ≤ keyBytes) (h2 : keyBytes ≤ 0x100000)
    (h : sbox.toList.Nodup) : (Params.small keyBytes sbox).error? = none := by
  have h3 : 1 ≤ keyBytes := by omega
  have h4 : 7 ≤ keyBytes / 4 := by omega
  simp [Params.error?, Params.small, Params.keyElements, Params.recBytes, h, h2, h3, h4]

/-- The identity table has no repeats. -/
theorem identityTable_nodup : (Vector.ofFn fun i : Fin 256 => (BitVec.ofFin i : Byte)).toList.Nodup := by
  rw [Vector.toList_ofFn]
  exact List.nodup_ofFn_ofInjective fun a b h => by simpa using congrArg BitVec.toFin h

/-- A BCE that exists whatever the free parameters are: CFG_SMALL with a key store of one window, the identity table and, from
`Params.small`, BCE_BASE in slot 0: each a DESIGN CHOICE. It shows only that the type of configurations is not empty
(notes/assumptions/2.md). -/
def Config.fallback : Config :=
  { toParams := Params.small 28 (Vector.ofFn fun i : Fin 256 => BitVec.ofFin i), ok := Params.small_ok (by decide) (by decide) identityTable_nodup }

/-- The BCE that `State.reset` describes: any hardware at all, since `Config.given` is free. -/
def Config.hardware : Config :=
  if h : Config.given.error? = none then { toParams := Config.given, ok := h } else Config.fallback

end Sys2Proof
end

