-- ==== Sys2Proof/Machine/Transactions.lean ====
section
/-! DEFINITION. Bus transactions, the turns of the two agents and the platform, and the host's program notation. -/

namespace Sys2Proof.Machine

/-- The direction of a host access (20_memory R56). -/
inductive Dir where
  /-- R: MemRead -/
  | read
  /-- W: MemWrite -/
  | write
  deriving DecidableEq, Repr

/-- One bus transaction: direction, window offset, size and data (30_encoding R77, R82). A write of `n` bytes uses the low `n`
bytes of `data`; a read uses none. -/
structure Access where
  dir : Dir
  off : Offset
  width : Width
  data : Word
  deriving DecidableEq, Repr

/-- Whose step comes next (00_scope R16, 70_reset_and_hazards R148). -/
inductive Turn where
  /-- The engine's completion step, if it is enabled. -/
  | engine
  /-- The host's program takes its next statement. -/
  | host
  /-- A bus access given outright: a host's, or another host's that shares the BCE (20_memory R63). -/
  | bus (a : Access)
  /-- The platform asserts `rst_i`. -/
  | reset
  deriving DecidableEq, Repr

/-- A host register h0 to h7 (30_encoding R78). -/
abbrev HReg := Fin 8

/-- An operand of a host statement: an immediate or a host register (30_encoding R77, R78). -/
inductive Src where
  | imm (v : Word)
  | reg (r : HReg)
  deriving DecidableEq, Repr

/-- The offset of `st` and `ld`: written out, or `[hA]` (30_encoding R77). -/
inductive OffExpr where
  | at (a : Offset)
  | reg (hA : HReg)
  deriving DecidableEq, Repr

/-- Where a branch goes: to a label of the program, or (`1b`) to the nearest such label before it (30_encoding R78, R80). -/
inductive Target where
  | label (l : Nat)
  | back (l : Nat)
  deriving DecidableEq, Repr

/-- A statement of the host transaction notation (30_encoding R77, R78). A label's name is a number here. -/
inductive Stmt where
  /-- `st<n> OFF, SRC` -/
  | st (n : Width) (off : OffExpr) (src : Src)
  /-- `ld<n> hD, OFF` -/
  | ld (n : Width) (hD : HReg) (off : OffExpr)
  | li (hD : HReg) (imm : Word)
  | addi (hD hS : HReg) (imm : Word)
  | andi (hD hS : HReg) (imm : Word)
  | shli (hD hS : HReg) (k : Nat)
  | bne (hS : HReg) (v : Src) (t : Target)
  | beq (hS : HReg) (v : Src) (t : Target)
  | bltu (hS : HReg) (v : Src) (t : Target)
  | assert (hS : HReg) (v : Src)
  /-- `label:` -/
  | label (l : Nat)
  deriving DecidableEq, Repr

/-- Whether the host's program goes on. A wrong program stops itself, never the BCE (notes/assumptions/9.md). -/
inductive HostStatus where
  /-- It goes on. -/
  | running
  /-- An assertion failed: the program is wrong (30_encoding R78). -/
  | assertFailed
  /-- It branched to a label it does not hold: it is no program of the notation. -/
  | noSuchLabel
  deriving DecidableEq, Repr

end Sys2Proof.Machine
end

