-- ==== Sys2Proof/Machine/State.lean ====
section
/-! DEFINITION. The state of the BCE (10_state R44), the agents around it, and the state after reset. -/

namespace Sys2Proof.Machine

/-- A byte array (KEY or REC): its nonzero bytes by index, indexes strictly rising. An unlisted byte is 0, its value after
reset (70_reset_and_hazards R146). `Memory.wf` in Machine/Ops.lean states the form. -/
abbrev Memory := List Host.Cell

/-- The host that runs a program in the notation of 30_encoding R77 to R80. It is no part of the BCE (R78). -/
structure HostSide where
  /-- The program, loaded from outside. -/
  prog : List Stmt
  /-- The place in the program of the next statement. -/
  place : Nat
  /-- Whether the program goes on. -/
  status : HostStatus
  /-- h0 to h7. -/
  regs : Vector Word 8
  deriving DecidableEq, Repr

/-- The BCE (the full list of 10_state R44), and with it the host, the turns still to be taken and the last value read. -/
structure State where
  /-- The configuration: constant (PARAM and SBOX come from it). -/
  cfg : Config
  /-- ARG0 (R32) -/
  arg0 : Word
  /-- ARG1 (R33) -/
  arg1 : Word
  /-- RESULT (R34) -/
  result : Word
  /-- IDXOFF (R35): IDX_BITS wide, zero-extended here. -/
  idxoff : Word
  /-- IRQEN (R31): bit 0 DONE_IE, bit 1 FAULT_IE. -/
  irqen : BitVec 2
  /-- STATUS.BUSY (R26) -/
  busy : Bool
  /-- STATUS.DONE (R27) -/
  done : Bool
  /-- STATUS.LOCKED (R28) -/
  locked : Bool
  /-- STATUS.FAULT (R29) -/
  fault : Bool
  /-- STATUS.ERRCODE (R29) -/
  errcode : BitVec 8
  /-- ERRINFO (R36) -/
  errinfo : Word
  /-- REC, the record buffer (R37), by byte index. -/
  recBuf : Memory
  /-- KEY, the key store (R38), by byte index. -/
  keyStore : Memory
  /-- CMD_L (R39), hidden -/
  cmdL : BitVec 4
  /-- WSEL_L (R39), hidden -/
  wselL : BitVec 2
  /-- A0_L (R39), hidden -/
  a0L : Word
  /-- A1_L (R39), hidden -/
  a1L : Word
  /-- The value the last host read returned: the model's own (notes/assumptions/7.md). -/
  rdata : Word
  /-- The host and its program (notes/assumptions/8.md). -/
  host : HostSide
  /-- The turns still to be taken, first to last: the model's own (notes/assumptions/3.md). -/
  sched : List Turn
  deriving DecidableEq, Repr

/-- Why the machine stops. This is no fault of the BCE: those are states with STATUS.FAULT = 1, and the machine goes on from
them (60_exceptions R131, R132; notes/assumptions/1.md). -/
inductive Fault where
  /-- The engine's turn finds BUSY = 1 and an opcode latch that is no command's; no acceptance leaves one, so no run reaches
  it: safe. -/
  | emptyLatch
  deriving DecidableEq, Repr

/-- Why a step has no meaning. -/
inductive Refusal where
  /-- Raised by an arm of exec without a meaning; no arm is left: safe. -/
  | notModelled (mnemonic : String)
  deriving DecidableEq, Repr

/-- A host that has no program; its registers hold 0 (notes/assumptions/8.md). -/
def HostSide.empty : HostSide := { prog := [], place := 0, status := .running, regs := Vector.replicate 8 0 }

/-- The state after reset of the BCE with configuration `c` (70_reset_and_hazards R146, R149). -/
def State.resetOf (c : Config) : State :=
  { cfg := c
    arg0 := 0, arg1 := 0, result := 0, idxoff := 0, irqen := 0
    busy := false, done := false, locked := false, fault := false, errcode := 0, errinfo := 0
    recBuf := [], keyStore := []
    cmdL := 0, wselL := 0, a0L := 0, a1L := 0
    rdata := 0, host := HostSide.empty, sched := [] }

/-- The machine right after reset (70_reset_and_hazards R146), for a configuration that the spec leaves open. -/
def State.reset : State := State.resetOf Config.hardware

end Sys2Proof.Machine
end

