-- ==== Sys2Proof/Machine/Ops.lean ====
section
/-! DEFINITION. The named operations: byte arrays, raising a fault, accepting and completing a command, and reset. -/

namespace Sys2Proof.Machine

/-! ### Byte arrays -/

/-- The form of a byte array, with every index below `n`: indexes strictly rising and no listed byte 0. -/
def Memory.wfBelow (n : Nat) : Nat → Memory → Bool
  | _, [] => true
  | low, (a, b) :: m => decide (low ≤ a) && decide (a < n) && (b != 0) && Memory.wfBelow n (a + 1) m

/-- A byte array of `n` bytes is in its one canonical form. -/
def Memory.wf (n : Nat) (m : Memory) : Bool := Memory.wfBelow n 0 m

/-- Byte `a` of an array; an unlisted byte is 0 (70_reset_and_hazards R146). -/
def Memory.get : Memory → Nat → Byte
  | [], _ => 0
  | (x, b) :: m, a => if a = x then b else Memory.get m a

/-- The array with byte `a` set to `v`, in canonical form: a zero byte is not listed. -/
def Memory.set : Memory → Nat → Byte → Memory
  | [], a, v => if v = 0 then [] else [(a, v)]
  | (x, b) :: m, a, v =>
    if a < x then (if v = 0 then (x, b) :: m else (a, v) :: (x, b) :: m)
    else if a = x then (if v = 0 then m else (a, v) :: m)
    else (x, b) :: Memory.set m a v

/-- The `n` bytes from index `a` up. -/
def Memory.read (m : Memory) (a : Nat) : Nat → List Byte
  | 0 => []
  | n + 1 => m.get a :: Memory.read m (a + 1) n

/-- The array with these bytes stored from index `a` up. -/
def Memory.write (m : Memory) (a : Nat) : List Byte → Memory
  | [] => m
  | b :: bs => Memory.write (m.set a b) (a + 1) bs

/-! ### Faults of the BCE -/

/-- The fault codes of 60_exceptions R124, NONE apart. -/
inductive FaultCode where
  | illegalCmd
  | notLocked
  | windowOverflow
  | lockedWrite
  | busyAccess
  | badAccess
  | misaligned
  deriving DecidableEq, Repr

/-- The ERRCODE of a fault (60_exceptions R124). -/
def FaultCode.code : FaultCode → BitVec 8
  | .illegalCmd => 0x01
  | .notLocked => 0x02
  | .windowOverflow => 0x03
  | .lockedWrite => 0x04
  | .busyAccess => 0x05
  | .badAccess => 0x06
  | .misaligned => 0x07

/-- `raise F(info)` (60_exceptions R123, R136): the fault record is written if there is none yet, and nothing else changes. It
is the BCE's whole taking of an exception: no vector, no saved state, no mode. -/
def raise (f : FaultCode) (info : Word) (s : State) : State :=
  if s.fault then s else { s with fault := true, errcode := f.code, errinfo := info }

/-- What `rst_i` does (70_reset_and_hazards R146, R147): the only way out of the fault state and of the locked state, there being
no return from a fault (60_exceptions R137). The configuration is a constant of the hardware; the host, its turns and the
value it read last are not the BCE's (notes/assumptions/6.md). -/
def applyReset (s : State) : State :=
  { State.resetOf s.cfg with rdata := s.rdata, host := s.host, sched := s.sched }

/-! ### The two steps of a command -/

/-- Acceptance: the latches take the opcode, WSEL and the operands; DONE is cleared and BUSY set (30_encoding R73, 10_state
R39). -/
def accept (i : Instr) (s : State) : State :=
  { s with cmdL := i.opc, wselL := i.wsel, a0L := s.arg0, a1L := s.arg1, done := false, busy := true }

/-- `complete()`: the effect, then BUSY <- 0 and DONE <- 1, one atomic step (10_state R39). -/
def complete (effect : State → State) (s : State) : State :=
  { effect s with busy := false, done := true }

/-- `issue(v)` for a command whose encoding is not reserved (30_encoding R73): `check` names the fault that its state-dependent
checks raise, with the CTRL value as information. While FAULT = 1 no command is accepted (60_exceptions R122). -/
def issue (i : Instr) (check : State → Option FaultCode) (s : State) : State :=
  if s.fault then s
  else
    match check s with
    | some f => raise f (encodeWord i) s
    | none => accept i s

/-- A command in the state it finds: issued while the engine is idle, completed while BUSY = 1 (notes/assumptions/4.md). -/
def runCommand (i : Instr) (check : State → Option FaultCode) (effect : State → State) (s : State) :
    Host.Outcome State Fault Refusal :=
  if s.busy then .next (complete effect s) else .next (issue i check s)

/-- The check of a command that any state admits (30_encoding R74). -/
def noCheck (_ : State) : Option FaultCode := none

/-- The check of the commands that need LOCKED = 1 (30_encoding R73, R74; 60_exceptions R128). -/
def lockCheck (s : State) : Option FaultCode := if s.locked then none else some .notLocked

end Sys2Proof.Machine
end

