-- ==== Sys2Proof/Machine/Operands.lean ====
section
/-! DEFINITION. Operands (30_encoding R72), the index hash, the window selector and the XOR datapath. -/

namespace Sys2Proof.Machine

/-- `trunc_IDX_BITS(x)`, zero-extended (00_scope R12): the bits above IDX_BITS are dropped. -/
def truncIdx (c : Config) (x : Word) : Word := (x.setWidth c.idxBits).setWidth 64

/-- The S-box image of a byte (10_state R40). -/
def substitute (sbox : Vector Byte 256) (b : Byte) : Byte := sbox[b.toNat]'b.isLt

/-- `IH(x)` on the low `n` bytes of `x`: each byte through the table (41_index_hash R91). -/
def indexHash (sbox : Vector Byte 256) (n : Nat) (x : Word) : Word := le ((bytesOf n x).map (substitute sbox))

/-- `IH` of the configuration, on IDX_BYTES bytes (41_index_hash R91). -/
def hashIndex (c : Config) (x : Word) : Word := indexHash c.sbox c.idxBytes x

/-- `start(o, wb, len) = o mod (KE(wb) - len + 1)` (40_subkey R83), for `len <= KE(wb)`. -/
def windowStart (c : Config) (o : Word) (wb len : Nat) : Nat := o.toNat % (c.keyElements wb - len + 1)

/-- `sel(o) = o mod MAXI`, the start of the datapath's window (42_cipher R99). -/
def selectStart (c : Config) (o : Word) : Nat := windowStart c o c.wBytes c.blockWords

/-- `cipher_start(x)`: mask with IDXOFF, hash, widen, reduce (42_cipher R103, 41_index_hash R98). -/
def cipherStart (s : State) (x : Word) : Nat := selectStart s.cfg (hashIndex s.cfg (x ^^^ s.idxoff))

/-- `KW(wb, i)`, key word `i` (00_scope R13, 20_memory R46). -/
def keyWord (key : Memory) (wb i : Nat) : Word := le (key.read (i * wb) wb)

/-- The index in REC of the first byte of payload word `i` (10_state R37). -/
def payloadAt (c : Config) (i : Nat) : Nat := c.idxBytes + i * c.wBytes

/-- `PW(i)`, payload word `i` (00_scope R13, 20_memory R46). -/
def payloadWord (c : Config) (rec : Memory) (i : Nat) : Word := le (rec.read (payloadAt c i) c.wBytes)

/-- `PW(i) <- PW(i) ^ KW(W_BYTES, start + i)`, one lane of the datapath (42_cipher R101). -/
def xorLane (c : Config) (key : Memory) (start i : Nat) (rec : Memory) : Memory :=
  rec.write (payloadAt c i) (bytesOf c.wBytes (payloadWord c rec i ^^^ keyWord key c.wBytes (start + i)))

/-- The first `n` lanes. -/
def xorLanes (c : Config) (key : Memory) (start : Nat) : Nat → Memory → Memory
  | 0, rec => rec
  | n + 1, rec => xorLane c key start n (xorLanes c key start n rec)

/-- `xor_block(start)`: the record buffer with the window XORed into its payload, all L lanes (42_cipher R101). -/
def xorBlock (c : Config) (key : Memory) (start : Nat) (rec : Memory) : Memory :=
  xorLanes c key start c.blockWords rec

/-- The record's index field, `le(REC[0 .. IDX_BYTES])` (20_memory R48 (d), 42_cipher R104). -/
def recordIndex (s : State) : Word := le (s.recBuf.read 0 s.cfg.idxBytes)

end Sys2Proof.Machine
end

