-- ==== Sys2Proof/Machine/Cipher.lean ====
section
/-! DEFINITION. The block transforms: XORWIN, CIPHER and CIPHER_REC (42_cipher). -/

namespace Sys2Proof.Machine

/-- `xor_block(start)` on the record buffer of a state: the payload and nothing else (42_cipher R101). -/
def xorPayload (start : Nat) (s : State) : State := { s with recBuf := xorBlock s.cfg s.keyStore start s.recBuf }

/-- The effect of XORWIN: the window at word offset A0_L (42_cipher R100). -/
def xorwinEffect (s : State) : State := xorPayload (selectStart s.cfg s.a0L) s

/-- XORWIN: XOR the window at a given word offset into the payload (42_cipher R100). -/
def execXorwin (s : State) : Host.Outcome State Fault Refusal := runCommand .xorwin lockCheck xorwinEffect s

/-- The effect of CIPHER: the window of the index in A0_L (42_cipher R102). -/
def cipherEffect (s : State) : State := xorPayload (cipherStart s (truncIdx s.cfg s.a0L)) s

/-- CIPHER: transform the payload in place for an index (42_cipher R102). -/
def execCipher (s : State) : Host.Outcome State Fault Refusal := runCommand .cipher lockCheck cipherEffect s

/-- The effect of CIPHER_REC: the window of the index that the record carries (42_cipher R104). -/
def cipherRecEffect (s : State) : State := xorPayload (cipherStart s (recordIndex s)) s

/-- CIPHER_REC: transform a packed indexed record in place (42_cipher R104). -/
def execCipherRec (s : State) : Host.Outcome State Fault Refusal := runCommand .cipherRec lockCheck cipherRecEffect s

end Sys2Proof.Machine
end

