-- ==== Sys2Proof/Machine/Control.lean ====
section
/-! DEFINITION. Construction and control: NOP and LOCK (43_control). -/

namespace Sys2Proof.Machine

/-- NOP: no effect but the handshake (43_control R116). -/
def execNop (s : State) : Host.Outcome State Fault Refusal := runCommand .nop noCheck id s

/-- The effect of LOCK: LOCKED <- 1 (43_control R118, R119). -/
def lockEffect (s : State) : State := { s with locked := true }

/-- LOCK: end construction and seal KEY and IDXOFF (43_control R118). -/
def execLock (s : State) : Host.Outcome State Fault Refusal := runCommand .lock noCheck lockEffect s

end Sys2Proof.Machine
end

