-- ==== Sys2Proof/Machine/Hash.lean ====
section
/-! DEFINITION. The index-hash command: HASH (41_index_hash). -/

namespace Sys2Proof.Machine

/-- The effect of HASH: RESULT <- zext_64(IH(trunc_IDX_BITS(A0_L))); IDXOFF is not applied (41_index_hash R92). -/
def hashEffect (s : State) : State := { s with result := hashIndex s.cfg (truncIdx s.cfg s.a0L) }

/-- HASH: apply the index hash to an index (41_index_hash R92). -/
def execHash (s : State) : Host.Outcome State Fault Refusal := runCommand .hash noCheck hashEffect s

end Sys2Proof.Machine
end

