-- ==== Sys2Proof/Machine/Subkey.lean ====
section
/-! DEFINITION. The window selector command: SUBKEY (40_subkey). -/

namespace Sys2Proof.Machine

/-- SUBKEY's check at acceptance: the full 64-bit ARG1 against KE(wb) (40_subkey R87, 30_encoding R73). -/
def subkeyCheck (wb : Width) (s : State) : Option FaultCode :=
  if s.cfg.keyElements wb.bytes < s.arg1.toNat then some .windowOverflow else none

/-- The effect of SUBKEY: RESULT <- start(A0_L, wb, A1_L) (40_subkey R84). -/
def subkeyEffect (wb : Width) (s : State) : State :=
  { s with result := BitVec.ofNat 64 (windowStart s.cfg s.a0L wb.bytes s.a1L.toNat) }

/-- SUBKEY: select a subkey window and report its start (40_subkey R84). -/
def execSubkey (wb : Width) (s : State) : Host.Outcome State Fault Refusal :=
  runCommand (.subkey wb) (subkeyCheck wb) (subkeyEffect wb) s

end Sys2Proof.Machine
end

