-- ==== Sys2Proof/Machine/Dispatch.lean ====
section
/-! DEFINITION. The one dispatch from a command to its meaning. -/

namespace Sys2Proof.Machine

def exec (i : Instr) (s : State) : Host.Outcome State Fault Refusal :=
  match i with
  | .nop => Sys2Proof.Machine.execNop s
  | .lock => Sys2Proof.Machine.execLock s
  | .hash => Sys2Proof.Machine.execHash s
  | .subkey wb => Sys2Proof.Machine.execSubkey wb s
  | .xorwin => Sys2Proof.Machine.execXorwin s
  | .cipher => Sys2Proof.Machine.execCipher s
  | .cipherRec => Sys2Proof.Machine.execCipherRec s

end Sys2Proof.Machine
end

