-- ==== Sys2Proof/Machine/Engine.lean ====
section
/-! DEFINITION. The engine's turn: the completion step of the latched command (10_state R39). -/

namespace Sys2Proof.Machine

/-- The command in the latches CMD_L and WSEL_L (10_state R39). -/
def latched (s : State) : Option Instr := commandOf s.cmdL s.wselL

/-- The engine's turn. `complete()` is enabled only while BUSY = 1; without it the turn does nothing (notes/assumptions/5.md). -/
def engineTurn (s : State) : Host.Outcome State Fault Refusal :=
  if s.busy then
    match latched s with
    | some i => exec i s
    | none => .fault .emptyLatch
  else .next s

end Sys2Proof.Machine
end

