-- ==== Sys2Proof/Machine/Flags.lean ====
section
/-! DEFINITION. The STATUS word, PARAM, and the interrupt output. -/

namespace Sys2Proof.Machine

/-- STATUS as the host reads it: BUSY, DONE, LOCKED, FAULT in bits 0 to 3, ERRCODE in [15:8], the rest 0 (10_state R26 to R30). -/
def statusWord (s : State) : Word :=
  (0#48 ++ s.errcode ++ 0#4 ++ BitVec.ofBool s.fault ++ BitVec.ofBool s.locked ++ BitVec.ofBool s.done ++
    BitVec.ofBool s.busy : BitVec (48 + 8 + 4 + 1 + 1 + 1 + 1))

/-- PARAM: WB [7:0], IB [15:8], LEN [31:16], KB [63:32] (10_state R24). -/
def paramWord (c : Config) : Word :=
  (BitVec.ofNat 32 c.keyBytes ++ BitVec.ofNat 16 c.blockWords ++ BitVec.ofNat 8 c.idxBytes ++
    BitVec.ofNat 8 c.wBytes : BitVec (32 + 16 + 8 + 8))

/-- ID (10_state R23). -/
def idWord : Word := 0x0000000042434531

/-- IRQEN.DONE_IE, bit 0 (10_state R31). -/
def State.doneIe (s : State) : Bool := s.irqen.getLsbD 0

/-- IRQEN.FAULT_IE, bit 1 (10_state R31). -/
def State.faultIe (s : State) : Bool := s.irqen.getLsbD 1

/-- `irq_o`, a level signal derived from the state at all times (10_state R43, 60_exceptions R134). -/
def State.irq (s : State) : Bool := (s.done && s.doneIe) || (s.fault && s.faultIe)

end Sys2Proof.Machine
end

