-- ==== Sys2Proof/Machine/Registers.lean ====
section
/-! DEFINITION. The register map (10_state R22 to R36): what a host read of a register gives and what a host write does. -/

namespace Sys2Proof.Machine

/-! Offsets of the ten registers (10_state R22). -/

abbrev offId : Nat := 0x000
abbrev offParam : Nat := 0x008
abbrev offCtrl : Nat := 0x010
abbrev offStatus : Nat := 0x018
abbrev offIrqen : Nat := 0x020
abbrev offArg0 : Nat := 0x028
abbrev offArg1 : Nat := 0x030
abbrev offResult : Nat := 0x038
abbrev offIdxoff : Nat := 0x040
abbrev offErrinfo : Nat := 0x048

/-- The value a host read of the register at `a` returns. CTRL and IDXOFF read as 0 (10_state R25, R35; 20_memory R53). -/
def readReg (s : State) (a : Nat) : Word :=
  if a = offId then idWord
  else if a = offParam then paramWord s.cfg
  else if a = offStatus then statusWord s
  else if a = offIrqen then s.irqen.setWidth 64
  else if a = offArg0 then s.arg0
  else if a = offArg1 then s.arg1
  else if a = offResult then s.result
  else if a = offErrinfo then s.errinfo
  else 0

/-- A host write of `v` to the register at `a`, CTRL apart: STATUS clears DONE on bit 1 (R30), IRQEN keeps bits [1:0] (R31),
ARG0 and ARG1 keep all bits (R32, R33), IDXOFF keeps IDX_BITS (R35). -/
def writeReg (a : Nat) (v : Word) (s : State) : State :=
  if a = offStatus then (if v.getLsbD 1 then { s with done := false } else s)
  else if a = offIrqen then { s with irqen := v.setWidth 2 }
  else if a = offArg0 then { s with arg0 := v }
  else if a = offArg1 then { s with arg1 := v }
  else if a = offIdxoff then { s with idxoff := truncIdx s.cfg v }
  else s

/-- The registers that cannot be written (20_memory R53, R56). -/
def readOnlyReg (a : Nat) : Bool := a = offId || a = offParam || a = offResult || a = offErrinfo

/-- The registers that can be read while the BCE is busy or faulted (20_memory R56, 60_exceptions R131). -/
def diagnosticReg (a : Nat) : Bool :=
  a = offId || a = offParam || a = offStatus || a = offIrqen || a = offErrinfo

end Sys2Proof.Machine
end

