-- ==== Sys2Proof/Machine/Bus.lean ====
section
/-! DEFINITION. Host accesses: the address map, the checks in their order, and the accesses themselves (20_memory). -/

namespace Sys2Proof.Machine

/-- The offset as a number. -/
def Access.addr (x : Access) : Nat := x.off.toNat

/-- How many bytes the access moves. -/
def Access.size (x : Access) : Nat := x.width.bytes

/-- The regions of the window (20_memory R50). -/
inductive Region where
  | regs
  | recBuf
  | key
  deriving DecidableEq, Repr

/-- Where REC begins in the window (20_memory R50). -/
abbrev recBase : Nat := 0x1000

/-- Where KEY begins in the window (20_memory R50). -/
abbrev keyBase : Nat := 0x100000

/-- The region that holds all of the bytes `a .. a+n`, if one does (20_memory R50, R51). -/
def regionOf (c : Config) (a n : Nat) : Option Region :=
  if a + n ≤ 0x50 then some .regs
  else if recBase ≤ a ∧ a + n ≤ recBase + c.recBytes then some .recBuf
  else if keyBase ≤ a ∧ a + n ≤ keyBase + c.keyBytes then some .key
  else none

/-- `allowed_while_busy(dir, a)` (20_memory R56). -/
def allowedWhileBusy (d : Dir) (a : Nat) : Bool :=
  match d with
  | .read => diagnosticReg a
  | .write => a = offIrqen

/-- The first check of 20_memory R56 that the access fails while FAULT = 0, in the order of the rule (60_exceptions R133). -/
def accessCheck (s : State) (x : Access) : Option FaultCode :=
  if x.addr % x.size ≠ 0 then some .misaligned
  else
    match regionOf s.cfg x.addr x.size with
    | none => some .badAccess
    | some r =>
      if r = .regs ∧ x.size ≠ 8 then some .badAccess
      else if x.dir = .write ∧ readOnlyReg x.addr then some .badAccess
      else if s.busy ∧ ¬ allowedWhileBusy x.dir x.addr then some .busyAccess
      else if x.dir = .write ∧ s.locked ∧ (r = .key ∨ x.addr = offIdxoff) then some .lockedWrite
      else none

/-- The host has the value `v` of its read; a write returns none. -/
def returnRead (x : Access) (v : Word) (s : State) : State :=
  if x.dir = .read then { s with rdata := v } else s

/-- An access while FAULT = 1 (60_exceptions R131): the diagnostic registers read, everything else reads 0, a write is dropped. -/
def faultedAccess (x : Access) (s : State) : State :=
  returnRead x (if x.size = 8 ∧ diagnosticReg x.addr then readReg s x.addr else 0) s

/-- An access that fails a check: the fault is raised with the offset as information, and a read returns 0 (20_memory R56,
60_exceptions R123, R124). -/
def failAccess (f : FaultCode) (x : Access) (s : State) : State :=
  returnRead x 0 (raise f (x.off.setWidth 64) s)

/-- The value of a read that passes the checks: a register, bytes of REC, or 0 for KEY (20_memory R52 to R54). -/
def readValue (s : State) (x : Access) : Word :=
  match regionOf s.cfg x.addr x.size with
  | some .regs => readReg s x.addr
  | some .recBuf => le (s.recBuf.read (x.addr - recBase) x.size)
  | some .key => 0
  | none => 0

/-- A write that passes the checks, CTRL apart (20_memory R52 to R54). -/
def storeValue (x : Access) (s : State) : State :=
  match regionOf s.cfg x.addr x.size with
  | some .regs => writeReg x.addr x.data s
  | some .recBuf => { s with recBuf := s.recBuf.write (x.addr - recBase) (bytesOf x.size x.data) }
  | some .key => { s with keyStore := s.keyStore.write (x.addr - keyBase) (bytesOf x.size x.data) }
  | none => s

/-- A CTRL write of `v` that passes the checks: a reserved value raises ILLEGAL_CMD, any other issues its command (30_encoding
R70, R73; 60_exceptions R126). -/
def ctrlWrite (v : Word) (s : State) : Host.Outcome State Fault Refusal :=
  match decodeWord v with
  | .ok i => exec i s
  | .error _ => .next (raise .illegalCmd v s)

/-- An access that passes the checks. -/
def performAccess (x : Access) (s : State) : Host.Outcome State Fault Refusal :=
  match x.dir with
  | .read => .next (returnRead x (readValue s x) s)
  | .write => if x.addr = offCtrl then ctrlWrite x.data s else .next (storeValue x s)

/-- `access(dir, a, n, v)`: one host access, in one step (20_memory R56, R57). -/
def busAccess (x : Access) (s : State) : Host.Outcome State Fault Refusal :=
  if s.fault then .next (faultedAccess x s)
  else
    match accessCheck s x with
    | some f => .next (failAccess f x s)
    | none => performAccess x s

end Sys2Proof.Machine
end

