-- ==== Sys2Proof/Machine/HostProgram.lean ====
section
/-! DEFINITION. The host's turn: one statement of its program (30_encoding R77, R78), and the pseudo-instructions (R79, R80). -/

namespace Sys2Proof.Machine

/-! ### Statements -/

/-- The value of a host register (30_encoding R78). -/
def hostReg (s : State) (r : HReg) : Word := s.host.regs[r]

/-- The state with a host register written. -/
def setHostReg (r : HReg) (v : Word) (s : State) : State :=
  { s with host := { s.host with regs := s.host.regs.set r v } }

/-- The state with the host at another place of its program. -/
def setPlace (p : Nat) (s : State) : State := { s with host := { s.host with place := p } }

/-- The host stops: its program is wrong (30_encoding R78; notes/assumptions/9.md). -/
def stopHost (r : HostStatus) (s : State) : State := { s with host := { s.host with status := r } }

/-- The host goes on to the next statement. -/
def advance (s : State) : State := setPlace (s.host.place + 1) s

/-- The value of an operand (30_encoding R77, R78). -/
def srcValue (s : State) : Src → Word
  | .imm v => v
  | .reg r => hostReg s r

/-- The offset a statement names; `[hA]` is the low 21 bits of the register (30_encoding R77). -/
def offValue (s : State) : OffExpr → Offset
  | .at a => a
  | .reg r => (hostReg s r).setWidth 21

/-- The bus transaction a statement puts on the bus, if it is one that does (30_encoding R77, R78, R82). -/
def transactionOf (s : State) : Stmt → Option Access
  | .st n off src => some { dir := .write, off := offValue s off, width := n, data := srcValue s src }
  | .ld n _ off => some { dir := .read, off := offValue s off, width := n, data := 0 }
  | .li _ _ => none
  | .addi _ _ _ => none
  | .andi _ _ _ => none
  | .shli _ _ _ => none
  | .bne _ _ _ => none
  | .beq _ _ _ => none
  | .bltu _ _ _ => none
  | .assert _ _ => none
  | .label _ => none

/-- The place of the first `l:` in a list of statements that begins at place `p`. -/
def labelFrom (l : Nat) : List Stmt → Nat → Option Nat
  | [], _ => none
  | st :: rest, p => if st = .label l then some p else labelFrom l rest (p + 1)

/-- The place of the nearest `l:` before place `p` (30_encoding R80). -/
def labelBefore (prog : List Stmt) (l : Nat) : Nat → Option Nat
  | 0 => none
  | p + 1 => if prog[p]? = some (.label l) then some p else labelBefore prog l p

/-- The place a branch goes to. -/
def targetPlace (s : State) : Target → Option Nat
  | .label l => labelFrom l s.host.prog 0
  | .back l => labelBefore s.host.prog l s.host.place

/-- A branch to `t`, taken if `b` holds (30_encoding R78). -/
def branch (b : Bool) (t : Target) (s : State) : State :=
  if b then
    match targetPlace s t with
    | some p => setPlace p s
    | none => stopHost .noSuchLabel s
  else advance s

/-- One statement of the host's program. `st` and `ld` are bus accesses; the others do no step of the BCE (30_encoding R77, R78). -/
def execStmt (st : Stmt) (s : State) : Host.Outcome State Fault Refusal :=
  match st with
  | .st n off src =>
    busAccess { dir := .write, off := offValue s off, width := n, data := srcValue s src } (advance s)
  | .ld n hD off =>
    match busAccess { dir := .read, off := offValue s off, width := n, data := 0 } (advance s) with
    | .next t => .next (setHostReg hD t.rdata t)
    | .fault f => .fault f
    | .refused r => .refused r
  | .li hD imm => .next (setHostReg hD imm (advance s))
  | .addi hD hS imm => .next (setHostReg hD (hostReg s hS + imm) (advance s))
  | .andi hD hS imm => .next (setHostReg hD (hostReg s hS &&& imm) (advance s))
  | .shli hD hS k => .next (setHostReg hD (hostReg s hS <<< k) (advance s))
  | .bne hS v t => .next (branch (hostReg s hS != srcValue s v) t s)
  | .beq hS v t => .next (branch (hostReg s hS == srcValue s v) t s)
  | .bltu hS v t => .next (branch ((hostReg s hS).ult (srcValue s v)) t s)
  | .assert hS v => if hostReg s hS = srcValue s v then .next (advance s) else .next (stopHost .assertFailed s)
  | .label _ => .next (advance s)

/-- The statement the host takes next: none at the end of its program, and none once it has stopped. -/
def currentStmt (s : State) : Option Stmt :=
  if s.host.status = .running then s.host.prog[s.host.place]? else none

/-- The host's turn: its next statement; a host that has none does nothing. -/
def hostTurn (s : State) : Host.Outcome State Fault Refusal :=
  match currentStmt s with
  | some st => execStmt st s
  | none => .next s

/-! ### Pseudo-instructions (30_encoding R79, R80) -/

/-- h7, which WAIT and CHECKOK use. -/
abbrev h7 : HReg := 7

/-- A number as a window offset. One of 0x200000 or more is none (30_encoding R77), and its low 21 bits are taken: DESIGN CHOICE,
notes/assumptions/22.md. -/
def regOff (a : Nat) : OffExpr := .at (BitVec.ofNat 21 a)

/-- `CMD <mnemonic>`: one 8-byte write of the command's CTRL value (30_encoding R79). -/
def asmCmd (i : Instr) : List Stmt := [.st .w8 (regOff offCtrl) (.imm (encodeWord i))]

/-- `WAIT`: poll until BUSY = 0. -/
def asmWait : List Stmt :=
  [.label 1, .ld .w8 h7 (regOff offStatus), .andi h7 h7 1, .bne h7 (.imm 0) (.back 1)]

/-- `ACK`: clear DONE. -/
def asmAck : List Stmt := [.st .w8 (regOff offStatus) (.imm 2)]

/-- `CHECKOK`: no fault recorded. -/
def asmCheckOk : List Stmt := [.ld .w8 h7 (regOff offStatus), .andi h7 h7 8, .assert h7 (.imm 0)]

/-- `SETOFF v` -/
def asmSetOff (v : Src) : List Stmt := [.st .w8 (regOff offIdxoff) v]

/-- `KEY8 k, v`. With k of 0x100000 or more, KEY+k is past the window: DESIGN CHOICE, notes/assumptions/22.md. -/
def asmKey8 (k : Nat) (v : Src) : List Stmt := [.st .w8 (regOff (keyBase + k)) v]

/-- `LOCKW` -/
def asmLockW : List Stmt := asmCmd .lock ++ asmWait

/-- `HASHI hD, v` -/
def asmHashI (hD : HReg) (v : Src) : List Stmt :=
  [.st .w8 (regOff offArg0) v] ++ asmCmd .hash ++ asmWait ++ [.ld .w8 hD (regOff offResult)]

/-- `SUBKEYI hD, wb, o, len` -/
def asmSubkeyI (hD : HReg) (wb : Width) (o len : Src) : List Stmt :=
  [.st .w8 (regOff offArg0) o, .st .w8 (regOff offArg1) len] ++ asmCmd (.subkey wb) ++ asmWait ++
    [.ld .w8 hD (regOff offResult)]

/-- `XORWINI o` -/
def asmXorwinI (o : Src) : List Stmt := [.st .w8 (regOff offArg0) o] ++ asmCmd .xorwin ++ asmWait

/-- `CIPHERI x` -/
def asmCipherI (x : Src) : List Stmt := [.st .w8 (regOff offArg0) x] ++ asmCmd .cipher ++ asmWait

/-- `CIPHERR` -/
def asmCipherR : List Stmt := asmCmd .cipherRec ++ asmWait

end Sys2Proof.Machine
end

