-- ==== Sys2Proof/Machine/Turns.lean ====
section
/-! DEFINITION. Whose turn it is and what the turn does (00_scope R16), the fetch of a command, and the latency figures. -/

namespace Sys2Proof.Machine

/-- The turn to take and the turns after it. With none listed, a busy engine goes first, so that an accepted command completes
(weak fairness, 70_reset_and_hazards R160), and else the host's program goes on (notes/assumptions/3.md). -/
def nextTurn (s : State) : Turn × List Turn :=
  match s.sched with
  | t :: rest => (t, rest)
  | [] => (if s.busy then .engine else .host, [])

/-- One turn: a completion, a host statement, a host access, or reset; each is one atomic step (20_memory R57, R60). -/
def takeTurn (t : Turn) (s : State) : Host.Outcome State Fault Refusal :=
  match t with
  | .engine => engineTurn s
  | .host => hostTurn s
  | .bus x => busAccess x s
  | .reset => .next (applyReset s)

/-- One step of the whole: the next turn is taken off the list and done. -/
def stepTurn (s : State) : Host.Outcome State Fault Refusal :=
  takeTurn (nextTurn s).1 { s with sched := (nextTurn s).2 }

/-- The bus transaction the next step carries, if it carries one (30_encoding R82). -/
def nextTransaction (s : State) : Option Access :=
  match (nextTurn s).1 with
  | .bus x => some x
  | .host => (currentStmt s).bind (transactionOf s)
  | .engine => none
  | .reset => none

/-- A program's encoding: the bus transactions of the next `k` steps, in order (30_encoding R82). -/
def transactions : Nat → State → List Access
  | 0, _ => []
  | k + 1, s =>
    (nextTransaction s).toList ++
      match stepTurn s with
      | .next t => transactions k t
      | .fault _ => []
      | .refused _ => []

/-- The CTRL write that carries a command word (30_encoding R67). -/
def ctrlAccess (v : Word) : Access :=
  { dir := .write, off := BitVec.ofNat 21 offCtrl, width := .w8, data := v }

/-- The BCE ready to take the CTRL write of `v` as its next step: neither busy nor faulted, the write first among the turns
(30_encoding R67, R73; notes/assumptions/11.md). -/
def placeCommand (v : Word) (s : State) : State :=
  { s with busy := false, fault := false, sched := .bus (ctrlAccess v) :: s.sched }

/-- Cycles from acceptance to completion, by opcode and configuration only (70_reset_and_hazards R161, R162). No step uses it. -/
def latency (c : Config) : Instr → Nat
  | .nop => 1
  | .lock => 1
  | .hash => 2
  | .subkey _ => 1 + c.tMod
  | .xorwin => 1 + c.tMod + c.blockWords
  | .cipher => 2 + c.tMod + c.blockWords
  | .cipherRec => 2 + c.tMod + c.blockWords

end Sys2Proof.Machine
end

