-- ==== Sys2Proof/Machine/Step.lean ====
section
/-! DEFINITION. The step, and a state whose next step fetches a given command. -/

namespace Sys2Proof.Machine

/-- One step of the machine: the next turn (00_scope R16). -/
def step (s : State) : Host.Outcome State Fault Refusal := stepTurn s

/-- `s` with the CTRL write of the table word `w`, of `nbits` bits, as its next turn (notes/assumptions/11.md). -/
def State.withFetchWord (s : State) (nbits w : Nat) : State :=
  placeCommand (BitVec.ofNat 64 (w % 2 ^ nbits)) s

end Sys2Proof.Machine
end

