-- ==== Sys2Proof/Safety.lean ====
section
/-! DEFINITION. What counts as a safe state and a finished run, the invariant of every run, and the relations claims use. -/

namespace Sys2Proof.Machine

/-- A fault outcome: FAULT = 1 (60_exceptions R145). -/
def State.faultOutcome (s : State) : Bool := s.fault

/-- No command is in flight; a state with BUSY = 1 is not final (60_exceptions R145). -/
def State.settled (s : State) : Bool := !s.busy

/-- The host's program is wrong: an assertion failed, or it branched nowhere (30_encoding R78). -/
def State.programWrong (s : State) : Bool := s.host.status != .running

/-- A run that ends here ended well: no command in flight, no fault, no failed assertion (60_exceptions R145, 30_encoding R78). -/
def State.endsWell (s : State) : Bool := s.settled && !s.faultOutcome && !s.programWrong

/-- The BCE can take a command: neither busy nor faulted (30_encoding R73). -/
def State.idle (s : State) : Prop := s.busy = false ∧ s.fault = false

/-- A command's state-dependent condition holds, for a window length `len` (30_encoding R73, R74; 40_subkey R87). -/
def admitted (i : Instr) (len : Word) (s : State) : Prop :=
  match i with
  | .nop => True
  | .lock => True
  | .hash => True
  | .subkey wb => len.toNat ≤ s.cfg.keyElements wb.bytes
  | .xorwin => s.locked = true
  | .cipher => s.locked = true
  | .cipherRec => s.locked = true

/-- What holds in every state that a run from reset reaches. -/
structure State.Inv (s : State) : Prop where
  /-- REC is in canonical form and has REC_BYTES bytes (10_state R37). -/
  recForm : s.recBuf.wf s.cfg.recBytes = true
  /-- KEY is in canonical form and has KEY_BYTES bytes (10_state R38). -/
  keyForm : s.keyStore.wf s.cfg.keyBytes = true
  /-- IDXOFF is IDX_BITS wide (10_state R35). -/
  idxoffWidth : truncIdx s.cfg s.idxoff = s.idxoff
  /-- ERRCODE is one of the eight codes (60_exceptions R124). -/
  legalCode : s.errcode.toNat ≤ 7
  /-- The fault record is empty exactly while FAULT = 0 (10_state R29, R36). -/
  faultRecord : s.fault = true ↔ s.errcode ≠ 0
  /-- ERRINFO is 0 while FAULT = 0 (10_state R36). -/
  faultInfo : s.fault = false → s.errinfo = 0
  /-- Acceptance clears DONE, and nothing sets it before completion (10_state R27). -/
  busyNotDone : s.busy = true → s.done = false
  /-- The operand registers keep the values latched at acceptance while BUSY = 1 (20_memory R61). -/
  busyOperands : s.busy = true → s.a0L = s.arg0 ∧ s.a1L = s.arg1
  /-- The latches hold an accepted command (10_state R39). -/
  busyCommand : s.busy = true → ∃ i : Instr, s.cmdL = i.opc ∧ s.wselL = i.wsel ∧ admitted i s.a1L s

/-- The states differ at most in the host, the turns and the value read last: the BCE is the same. -/
def sameBce (s t : State) : Prop := { s with host := t.host, sched := t.sched, rdata := t.rdata } = t

/-- The states differ at most in the secrets KEY and IDXOFF. -/
def sameButSecrets (s t : State) : Prop := { s with keyStore := t.keyStore, idxoff := t.idxoff } = t

/-- Issue a command and let it complete, with nothing between. -/
def issueAndComplete (i : Instr) (s : State) : Host.Outcome State Fault Refusal :=
  match exec i s with
  | .next t => exec i t
  | .fault f => .fault f
  | .refused r => .refused r

/-- The start of the window that a block command selects with `o` in ARG0 and REC as it is; the other commands select none for the
datapath (42_cipher R100, R102, R104). -/
def blockStart (i : Instr) (o : Word) (s : State) : Option Nat :=
  match i with
  | .xorwin => some (selectStart s.cfg o)
  | .cipher => some (cipherStart s (truncIdx s.cfg o))
  | .cipherRec => some (cipherStart s (recordIndex s))
  | .nop => none
  | .lock => none
  | .hash => none
  | .subkey _ => none

/-- `s` after an access whose check failed with ERRCODE `code`: the fault record, 0 for the value of a read, and nothing else
(60_exceptions R123, R124; 20_memory R56). -/
def recorded (x : Access) (code : BitVec 8) (s : State) : State :=
  { s with
    fault := true, errcode := code, errinfo := x.off.setWidth 64, rdata := if x.dir = .read then 0 else s.rdata }

/-- `t` is `s` with the window at key word `start` XORed into the payload, byte for byte, and a completed handshake: no byte of
the index field, nor anything else, differs (20_memory R49, 42_cipher R101, 10_state R39). -/
def xorsWindow (start : Nat) (s t : State) : Prop :=
  ∃ m : Memory, t = { s with recBuf := m, busy := false, done := true } ∧ m.wf s.cfg.recBytes = true ∧
    ∀ j, m.get j =
      if s.cfg.idxBytes ≤ j ∧ j < s.cfg.recBytes then
        s.recBuf.get j ^^^ s.keyStore.get (start * s.cfg.wBytes + (j - s.cfg.idxBytes))
      else s.recBuf.get j

end Sys2Proof.Machine
end

