-- ==== Sys2Proof/WellFormed.lean ====
section
/-! DEFINITION. What it takes for a command and for a configuration to be well formed. -/

namespace Sys2Proof

/-- A command is well formed when its operands are among those that 30_encoding R69 and R79 allow. The operand types admit no
others (SUBKEY's word size is one of the four that R67 lists), so every command of the syntax is. -/
def Instr.wellFormed : Instr → Bool
  | .nop => true
  | .lock => true
  | .hash => true
  | .subkey _ => true
  | .xorwin => true
  | .cipher => true
  | .cipherRec => true

/-- A configuration is well formed when it meets every constraint of 00_scope R9; `elaborate` refuses any other by name. -/
def Params.wellFormed (p : Params) : Bool := p.error? = none

end Sys2Proof
end

