-- ==== Sys2Proof/Certificates/Slice0/Obligations.lean ====
section
/-! DEFINITION. The statements for the provers; what each formalises is in its docstring and in OBLIGATIONS.json. -/

open Sys2Proof Sys2Proof.Machine

/-! ### Encoding -/

/-- R69, R75, R76: a CTRL value decodes to a command exactly when it is that command's value, and a command's bytes decode to
it with the bytes after them left over. -/
def Obligations.CtrlValueDecodesToExactlyItsCommand : Prop :=
  (∀ (v : Word) (i : Instr), decodeWord v = .ok i ↔ encodeWord i = v) ∧
  ∀ (i : Instr) (rest : List Byte), i.wellFormed = true → decode (encode i ++ rest) = .ok (i, rest)

/-- R70, R76: a value is reserved when OPC is 0x7 to 0xF, or RSV is not 0, or WSEL is not 0 outside SUBKEY; every other value
is exactly one command. -/
def Obligations.EveryCtrlValueIsOneCommandOrReserved : Prop :=
  ∀ v : Word,
    ((∃ e, decodeWord v = .error e) ↔
      7 ≤ v.toNat % 16 ∨ v.toNat / 64 ≠ 0 ∨ (v.toNat % 16 ≠ 3 ∧ v.toNat / 16 % 4 ≠ 0)) ∧
    ((∃! i, decodeWord v = .ok i) ↔
      ¬ (7 ≤ v.toNat % 16 ∨ v.toNat / 64 ≠ 0 ∨ (v.toNat % 16 ≠ 3 ∧ v.toNat / 16 % 4 ≠ 0)))

/-- R75: the ten CTRL values of the spec decode to the commands they stand for. -/
def Obligations.SpecWordsDecodeToTheirCommands : Prop :=
  decodeWord 0x0000000000000000 = .ok .nop ∧ decodeWord 0x0000000000000001 = .ok .lock ∧
  decodeWord 0x0000000000000002 = .ok .hash ∧ decodeWord 0x0000000000000003 = .ok (.subkey .w1) ∧
  decodeWord 0x0000000000000013 = .ok (.subkey .w2) ∧ decodeWord 0x0000000000000023 = .ok (.subkey .w4) ∧
  decodeWord 0x0000000000000033 = .ok (.subkey .w8) ∧ decodeWord 0x0000000000000004 = .ok .xorwin ∧
  decodeWord 0x0000000000000005 = .ok .cipher ∧ decodeWord 0x0000000000000006 = .ok .cipherRec

/-! ### What a step runs -/

/-- R67, R73: the 8-byte write of a command's value to CTRL, while the BCE is neither busy nor faulted, runs that command on the
state with the access taken off the turns. -/
def Obligations.CtrlWriteStepRunsDecodedCommand : Prop :=
  ∀ (s : State) (v : Word) (i : Instr) (rest : List Turn),
    s.idle → s.sched = .bus { dir := .write, off := 0x010, width := .w8, data := v } :: rest → decodeWord v = .ok i →
    step s = exec i { s with sched := rest }

/-- R39: the engine's turn while BUSY = 1 runs the latched command; with no turn listed, a busy engine moves (model's choice,
notes/assumptions/3.md). -/
def Obligations.EngineStepRunsLatchedCommand : Prop :=
  ∀ (s : State) (i : Instr), s.busy = true → i.opc = s.cmdL → i.wsel = s.wselL →
    (∀ rest, s.sched = .engine :: rest → step s = exec i { s with sched := rest }) ∧
    (s.sched = [] → step s = exec i s)

/-- R67 and notes/assumptions/11.md: the word that withFetchWord places runs as the very next step. -/
def Obligations.PlacedWordRunsAsNextStep : Prop :=
  ∀ (s : State) (w : Nat) (i : Instr), decodeTableWord 64 w = some i →
    step (s.withFetchWord 64 w) = exec i { s with busy := false, fault := false }

/-! ### Acceptance -/

/-- R39, R73: an admitted command latches OPC, WSEL, ARG0 and ARG1, clears DONE and sets BUSY, and changes nothing else. -/
def Obligations.AdmittedCommandIsAccepted : Prop :=
  ∀ (i : Instr) (s : State), s.idle → admitted i s.arg1 s →
    exec i s = .next { s with
      cmdL := (encodeWord i).extractLsb' 0 4, wselL := (encodeWord i).extractLsb' 4 2, a0L := s.arg0, a1L := s.arg1,
      done := false, busy := true }

/-- R70, R126: a CTRL write of a reserved value raises ILLEGAL_CMD with that value, before any other command check, and does
nothing else. -/
def Obligations.ReservedCtrlValueRaisesIllegalCmd : Prop :=
  ∀ (s : State) (v : Word) (e : Reserved) (rest : List Turn),
    s.idle → s.sched = .bus { dir := .write, off := 0x010, width := .w8, data := v } :: rest → decodeWord v = .error e →
    step s = .next { s with sched := rest, fault := true, errcode := 0x01, errinfo := v }

/-- R74, R128: XORWIN, CIPHER and CIPHER_REC while LOCKED = 0 raise NOT_LOCKED with the CTRL value, and do nothing else. -/
def Obligations.BlockCommandWithoutLockRaisesNotLocked : Prop :=
  ∀ (i : Instr) (s : State), i = .xorwin ∨ i = .cipher ∨ i = .cipherRec → s.idle → s.locked = false →
    exec i s = .next { s with fault := true, errcode := 0x02, errinfo := encodeWord i }

/-- R87: SUBKEY whose full 64-bit ARG1 exceeds KE(2^WSEL) raises WINDOW_OVERFLOW with the CTRL value, and does nothing else. -/
def Obligations.TooLongWindowRaisesOverflow : Prop :=
  ∀ (wb : Width) (s : State), s.idle → s.cfg.keyBytes / wb.bytes < s.arg1.toNat →
    exec (.subkey wb) s = .next { s with fault := true, errcode := 0x03, errinfo := encodeWord (.subkey wb) }

/-- R86: SUBKEY with len = 0 is accepted for every offset and word size, even when KE(wb) = 0, and completes without
fault, with RESULT = A0_L mod (KE(wb) + 1). -/
def Obligations.ZeroLengthWindowNeverFails : Prop :=
  ∀ (wb : Width) (s : State), s.idle → s.arg1 = 0 →
    ∃ t, issueAndComplete (.subkey wb) s = .next t ∧ t.fault = false ∧ t.errcode = s.errcode ∧
      t.result.toNat = s.arg0.toNat % (s.cfg.keyBytes / wb.bytes + 1)

/-! ### Completion: the effect of each command, and that it changes nothing else -/

/-- R116: NOP completes with the handshake alone. -/
def Obligations.NopCompletesWithHandshakeOnly : Prop :=
  ∀ s : State, s.busy = true → exec .nop s = .next { s with busy := false, done := true }

/-- R118: LOCK sets LOCKED and leaves KEY, IDXOFF, REC, RESULT and everything else but the handshake unchanged. -/
def Obligations.LockCompletesBySettingLocked : Prop :=
  ∀ s : State, s.busy = true → exec .lock s = .next { s with locked := true, busy := false, done := true }

/-- R119: LOCK while LOCKED = 1 is accepted and completes, and changes nothing but the handshake and its latches. -/
def Obligations.LockIsIdempotent : Prop :=
  ∀ s : State, s.idle → s.locked = true →
    issueAndComplete .lock s = .next { s with
      locked := true, cmdL := 0x1, wselL := 0, a0L := s.arg0, a1L := s.arg1, busy := false, done := true }

/-- R91, R92: HASH puts into RESULT the S-box image of each of the IDX_BYTES low bytes of A0_L, and 0 above; IDXOFF is not
applied and nothing else changes. -/
def Obligations.HashCompletesWithSubstitutedBytes : Prop :=
  ∀ s : State, s.busy = true →
    ∃ r : Word, exec .hash s = .next { s with result := r, busy := false, done := true } ∧
      ∀ k, k < 8 → r.extractLsb' (8 * k) 8 =
        if k < s.cfg.idxBytes then substitute s.cfg.sbox (s.a0L.extractLsb' (8 * k) 8) else 0

/-- R83, R84: SUBKEY puts A0_L mod (KE(wb) - A1_L + 1) into RESULT, for a length A1_L up to KE(wb), and changes nothing else. -/
def Obligations.SubkeyCompletesWithWindowStart : Prop :=
  ∀ (wb : Width) (s : State), s.busy = true → s.a1L.toNat ≤ s.cfg.keyBytes / wb.bytes →
    ∃ r : Word, exec (.subkey wb) s = .next { s with result := r, busy := false, done := true } ∧
      r.toNat = s.a0L.toNat % (s.cfg.keyBytes / wb.bytes - s.a1L.toNat + 1)

/-- R49, R99 to R101: XORWIN XORs the key bytes from word A0_L mod MAXI into the payload, and changes no other byte of REC and
nothing else. -/
def Obligations.XorwinCompletesByXoringWindow : Prop :=
  ∀ s : State, s.Inv → s.busy = true →
    ∃ t, exec .xorwin s = .next t ∧
      xorsWindow (s.a0L.toNat % (s.cfg.keyBytes / s.cfg.wBytes - s.cfg.blockWords + 1)) s t

/-- R102, R103: CIPHER XORs in the window of its index: masked with IDXOFF, hashed, and reduced modulo MAXI, in this order. -/
def Obligations.CipherCompletesByXoringHashedWindow : Prop :=
  ∀ s : State, s.Inv → s.busy = true →
    ∃ t, exec .cipher s = .next t ∧
      xorsWindow ((hashIndex s.cfg (truncIdx s.cfg s.a0L ^^^ s.idxoff)).toNat %
        (s.cfg.keyBytes / s.cfg.wBytes - s.cfg.blockWords + 1)) s t

/-- R103, R104: CIPHER_REC does the same for the index in the record's little-endian index field, which stays in clear. -/
def Obligations.CipherRecCompletesByXoringHashedWindow : Prop :=
  ∀ s : State, s.Inv → s.busy = true →
    ∃ (t : State) (x : Word), exec .cipherRec s = .next t ∧
      (∀ k, k < 8 → x.extractLsb' (8 * k) 8 = if k < s.cfg.idxBytes then s.recBuf.get k else 0) ∧
      xorsWindow ((hashIndex s.cfg (x ^^^ s.idxoff)).toNat %
        (s.cfg.keyBytes / s.cfg.wBytes - s.cfg.blockWords + 1)) s t

/-- R101: the datapath word by word: payload word i becomes PW(i) ^ KW(W_BYTES, start + i). -/
def Obligations.XorwinFollowsTheWordRule : Prop :=
  ∀ (s t : State) (i : Nat), s.Inv → s.busy = true → i < s.cfg.blockWords → exec .xorwin s = .next t →
    payloadWord s.cfg t.recBuf i =
      payloadWord s.cfg s.recBuf i ^^^ keyWord s.keyStore s.cfg.wBytes (selectStart s.cfg s.a0L + i)

/-! ### Host accesses -/

/-- R22 to R36, R53: what a host read of each of the ten registers returns while the BCE is idle (CTRL and IDXOFF read as 0), and that
it changes nothing. PARAM and STATUS return the words whose fields DiagnosticReadsAlwaysWork gives. -/
def Obligations.RegisterReadsReturnTheirValues : Prop :=
  ∀ (s : State) (off : Offset) (v d : Word) (rest : List Turn), s.idle →
    s.sched = .bus { dir := .read, off := off, width := .w8, data := d } :: rest →
    (off, v) ∈ [(0x000, 0x42434531), (0x008, paramWord s.cfg), (0x010, 0), (0x018, statusWord s), (0x020, s.irqen.setWidth 64), (0x028, s.arg0), (0x030, s.arg1),
      (0x038, s.result), (0x040, 0), (0x048, s.errinfo)] →
    step s = .next { s with sched := rest, rdata := v }

/-- R56, R131, R152: the five diagnostic registers read in every state, busy or faulted, and reading them changes nothing; STATUS
is BUSY, DONE, LOCKED, FAULT in bits 0 to 3 and ERRCODE in [15:8] (R26 to R30), PARAM is the configuration (R24). -/
def Obligations.DiagnosticReadsAlwaysWork : Prop :=
  ∀ (s : State) (off : Offset) (n : Nat) (d : Word) (rest : List Turn),
    s.sched = .bus { dir := .read, off := off, width := .w8, data := d } :: rest →
    (off, n) ∈ [(0x000, 0x42434531),
      (0x008, s.cfg.wBytes + 0x100 * s.cfg.idxBytes + 0x10000 * s.cfg.blockWords + 0x100000000 * s.cfg.keyBytes),
      (0x018, s.busy.toNat + 2 * s.done.toNat + 4 * s.locked.toNat + 8 * s.fault.toNat + 0x100 * s.errcode.toNat),
      (0x020, s.irqen.toNat), (0x048, s.errinfo.toNat)] →
    ∃ v : Word, v.toNat = n ∧ step s = .next { s with sched := rest, rdata := v }

/-- R54: a read of KEY, of any width, in either lock state, returns 0 and changes nothing. -/
def Obligations.KeyReadsReturnZero : Prop :=
  ∀ (s : State) (x : Access) (rest : List Turn), s.idle → s.sched = .bus x :: rest → x.dir = .read →
    x.addr % x.size = 0 → 0x100000 ≤ x.addr → x.addr + x.size ≤ 0x100000 + s.cfg.keyBytes →
    step s = .next { s with sched := rest, rdata := 0 }

/-- R30 to R35: what an 8-byte write of a register stores: STATUS clears DONE on bit 1, IRQEN (also while BUSY = 1, R56) keeps bits
[1:0], ARG0 and ARG1 keep all bits, IDXOFF (while unlocked) keeps the low IDX_BITS; nothing else changes. -/
def Obligations.RegisterWritesStoreTheirFields : Prop :=
  ∀ (s : State) (off : Offset) (v : Word) (rest : List Turn), s.fault = false →
    s.sched = .bus { dir := .write, off := off, width := .w8, data := v } :: rest →
    (off = 0x018 → s.busy = false →
      step s = .next { s with sched := rest, done := s.done && !v.getLsbD 1 }) ∧
    (off = 0x020 → step s = .next { s with sched := rest, irqen := v.extractLsb' 0 2 }) ∧
    (off = 0x028 → s.busy = false → step s = .next { s with sched := rest, arg0 := v }) ∧
    (off = 0x030 → s.busy = false → step s = .next { s with sched := rest, arg1 := v }) ∧
    (off = 0x040 → s.busy = false → s.locked = false →
      step s = .next { s with sched := rest, idxoff := BitVec.ofNat 64 (v.toNat % 2 ^ (8 * s.cfg.idxBytes)) })

/-- R53: an 8-byte write to ID, PARAM, RESULT or ERRINFO raises BAD_ACCESS with the offset, busy or not. -/
def Obligations.ReadOnlyRegisterWriteRaisesBadAccess : Prop :=
  ∀ (s : State) (off : Offset) (v : Word) (rest : List Turn), s.fault = false →
    off = 0x000 ∨ off = 0x008 ∨ off = 0x038 ∨ off = 0x048 →
    s.sched = .bus { dir := .write, off := off, width := .w8, data := v } :: rest →
    step s = .next (recorded { dir := .write, off := off, width := .w8, data := v } 0x06 { s with sched := rest })

/-- R48, R52: a write in REC stores its bytes, lowest first, in either lock state; every other byte of REC and everything else is
unchanged. -/
def Obligations.RecordWriteStoresItsBytes : Prop :=
  ∀ (s : State) (x : Access) (rest : List Turn), s.Inv → s.idle → s.sched = .bus x :: rest → x.dir = .write →
    x.addr % x.size = 0 → 0x1000 ≤ x.addr → x.addr + x.size ≤ 0x1000 + s.cfg.recBytes →
    ∃ m : Memory, step s = .next { s with sched := rest, recBuf := m } ∧ m.wf s.cfg.recBytes = true ∧
      ∀ j, m.get j = if x.addr ≤ 0x1000 + j ∧ 0x1000 + j < x.addr + x.size
        then x.data.extractLsb' (8 * (0x1000 + j - x.addr)) 8 else s.recBuf.get j

/-- R48, R52: a read in REC returns its bytes, lowest first, zero-extended, and changes nothing. -/
def Obligations.RecordReadReturnsItsBytes : Prop :=
  ∀ (s : State) (x : Access) (rest : List Turn), s.idle → s.sched = .bus x :: rest → x.dir = .read →
    x.addr % x.size = 0 → 0x1000 ≤ x.addr → x.addr + x.size ≤ 0x1000 + s.cfg.recBytes →
    ∃ v : Word, step s = .next { s with sched := rest, rdata := v } ∧
      ∀ k, k < 8 → v.extractLsb' (8 * k) 8 = if k < x.size then s.recBuf.get (x.addr - 0x1000 + k) else 0

/-- R54: a write in KEY while LOCKED = 0 stores its bytes, lowest first; every other byte of KEY and everything else is
unchanged. -/
def Obligations.UnlockedKeyWriteStoresItsBytes : Prop :=
  ∀ (s : State) (x : Access) (rest : List Turn), s.Inv → s.idle → s.locked = false → s.sched = .bus x :: rest →
    x.dir = .write → x.addr % x.size = 0 → 0x100000 ≤ x.addr → x.addr + x.size ≤ 0x100000 + s.cfg.keyBytes →
    ∃ m : Memory, step s = .next { s with sched := rest, keyStore := m } ∧ m.wf s.cfg.keyBytes = true ∧
      ∀ j, m.get j = if x.addr ≤ 0x100000 + j ∧ 0x100000 + j < x.addr + x.size
        then x.data.extractLsb' (8 * (0x100000 + j - x.addr)) 8 else s.keyStore.get j

/-- R127: a write to KEY or to IDXOFF while LOCKED = 1 raises LOCKED_WRITE with the offset and stores nothing. -/
def Obligations.LockedWriteRaisesLockedWrite : Prop :=
  ∀ (s : State) (x : Access) (rest : List Turn), s.idle → s.locked = true → s.sched = .bus x :: rest → x.dir = .write →
    x.addr % x.size = 0 →
    (0x100000 ≤ x.addr ∧ x.addr + x.size ≤ 0x100000 + s.cfg.keyBytes) ∨ (x.addr = 0x040 ∧ x.size = 8) →
    step s = .next (recorded x 0x04 { s with sched := rest })

/-- R55, R133: an access that is not naturally aligned raises MISALIGNED with its offset before any other check but FAULT, and does
nothing else. -/
def Obligations.MisalignedAccessRaisesMisaligned : Prop :=
  ∀ (s : State) (x : Access) (rest : List Turn), s.fault = false → s.sched = .bus x :: rest → x.addr % x.size ≠ 0 →
    step s = .next (recorded x 0x07 { s with sched := rest })

/-- R51, R53: an aligned access that does not lie wholly inside one region, or is not 8 bytes wide inside REGS, raises BAD_ACCESS
with its offset, and does nothing else. -/
def Obligations.UnmappedAccessRaisesBadAccess : Prop :=
  ∀ (s : State) (x : Access) (rest : List Turn), s.fault = false → s.sched = .bus x :: rest → x.addr % x.size = 0 →
    (¬ (x.addr + x.size ≤ 0x50) ∧ ¬ (0x1000 ≤ x.addr ∧ x.addr + x.size ≤ 0x1000 + s.cfg.recBytes) ∧
      ¬ (0x100000 ≤ x.addr ∧ x.addr + x.size ≤ 0x100000 + s.cfg.keyBytes)) ∨
    (x.addr + x.size ≤ 0x50 ∧ x.size ≠ 8) →
    step s = .next (recorded x 0x06 { s with sched := rest })

/-- R56, R129: while BUSY = 1, an access that passes the earlier checks raises BUSY_ACCESS with its offset unless it reads ID, PARAM,
STATUS, IRQEN or ERRINFO or writes IRQEN, and does nothing else. -/
def Obligations.AccessWhileBusyRaisesBusyAccess : Prop :=
  ∀ (s : State) (x : Access) (rest : List Turn), s.busy = true → s.fault = false → s.sched = .bus x :: rest →
    x.addr % x.size = 0 →
    (x.addr + x.size ≤ 0x50 ∧ x.size = 8) ∨ (0x1000 ≤ x.addr ∧ x.addr + x.size ≤ 0x1000 + s.cfg.recBytes) ∨
      (0x100000 ≤ x.addr ∧ x.addr + x.size ≤ 0x100000 + s.cfg.keyBytes) →
    (x.dir = .read → x.addr ∉ [0x000, 0x008, 0x018, 0x020, 0x048]) →
    (x.dir = .write → x.addr ∉ [0x000, 0x008, 0x020, 0x038, 0x048]) →
    step s = .next (recorded x 0x05 { s with sched := rest })

/-- R131: while FAULT = 1 a write of any offset and width is dropped, an 8-byte read of a diagnostic register returns its value and
any other read returns 0; nothing else changes, and no new fault is recorded. -/
def Obligations.FaultedAccessesDoNothing : Prop :=
  ∀ (s : State) (x : Access) (rest : List Turn), s.fault = true → s.sched = .bus x :: rest →
    (x.dir = .write → step s = .next { s with sched := rest }) ∧
    (x.dir = .read → step s = .next { s with
      sched := rest
      rdata := if x.size = 8 ∧ x.addr ∈ [0x000, 0x008, 0x018, 0x020, 0x048] then readReg s x.addr else 0 })

/-! ### The whole machine -/

/-- R26 to R29, R35 to R39, R61, R124: every step from a state that meets the invariant ends in one that meets it. -/
def Obligations.EveryStepKeepsTheStateInvariant : Prop :=
  ∀ s t : State, s.Inv → step s = .next t → t.Inv

/-- R146, R149: the state after reset meets the invariant, for every configuration. -/
def Obligations.ResetStatesMeetTheStateInvariant : Prop :=
  (∀ c : Config, (State.resetOf c).Inv) ∧ State.reset.Inv

/-- R39, R122, R136: from a state that meets the invariant the machine always goes on: no step stops or is refused. For three kinds
of step that is the model's choice, which these rules do not give: the engine's turn while BUSY = 0 does nothing
(notes/assumptions/5.md); a host with no statement left, with a failed assertion or with a missing label does nothing more
(notes/assumptions/9.md); and some turn comes even when none is listed (notes/assumptions/3.md). -/
def Obligations.EveryStepAnswersANextState : Prop :=
  ∀ s : State, s.Inv → ∃ t, step s = .next t

/-- R9, R24, R40: no step changes the configuration, so PARAM and SBOX are constants. -/
def Obligations.ConfigurationNeverChanges : Prop :=
  ∀ s t : State, step s = .next t → t.cfg = s.cfg

/-- R122: no command, access or completion clears FAULT, ERRCODE or ERRINFO, and reset does; while FAULT = 1 no command is accepted
and no host write changes state: only a command in flight still completes. -/
def Obligations.OnlyResetClearsTheFaultRecord : Prop :=
  ∀ s t : State, s.fault = true → step s = .next t →
    ((nextTurn s).1 ≠ .reset →
      t.fault = true ∧ t.errcode = s.errcode ∧ t.errinfo = s.errinfo ∧
      ((nextTurn s).1 ≠ .engine ∨ s.busy = false → sameBce s t)) ∧
    ((nextTurn s).1 = .reset → t.fault = false ∧ t.errcode = 0 ∧ t.errinfo = 0)

/-- R120: no step but reset clears LOCKED or changes KEY or IDXOFF once locked; reset clears all three. -/
def Obligations.LockSealsKeyAndOffsetUntilReset : Prop :=
  ∀ s t : State, s.locked = true → step s = .next t →
    ((nextTurn s).1 ≠ .reset → t.locked = true ∧ t.keyStore = s.keyStore ∧ t.idxoff = s.idxoff) ∧
    ((nextTurn s).1 = .reset → t.locked = false ∧ (∀ j, t.keyStore.get j = 0) ∧ t.idxoff = 0)

/-- R146, R147: a reset step puts every piece of state into its reset value in one step, whatever the state was, a command in flight
included. -/
def Obligations.ResetStepClearsEverything : Prop :=
  ∀ (s : State) (rest : List Turn), s.sched = .reset :: rest →
    ∃ t, step s = .next t ∧ t.cfg = s.cfg ∧ t.arg0 = 0 ∧ t.arg1 = 0 ∧ t.result = 0 ∧ t.errinfo = 0 ∧ t.idxoff = 0 ∧
      t.irqen = 0 ∧ t.busy = false ∧ t.done = false ∧ t.locked = false ∧ t.fault = false ∧ t.errcode = 0 ∧
      (∀ j, t.recBuf.get j = 0) ∧ (∀ j, t.keyStore.get j = 0) ∧ t.cmdL = 0 ∧ t.wselL = 0 ∧ t.a0L = 0 ∧ t.a1L = 0 ∧
      t.irq = false ∧ t.sched = rest

/-- R43, R134: irq_o from the bits the host can read: DONE and FAULT of STATUS, each with its enable in IRQEN; 0 after reset. -/
def Obligations.IrqFollowsStatusAndEnables : Prop :=
  (∀ s : State, s.irq = (((statusWord s).getLsbD 1 && s.irqen.getLsbD 0) || ((statusWord s).getLsbD 3 && s.irqen.getLsbD 1))) ∧
  ∀ c : Config, (State.resetOf c).irq = false

/-- R26, R57, R61, R72: while BUSY = 1, no turn but the engine's and reset changes the latches, the operands, the buffers, the lock or
the result, or ends the command. -/
def Obligations.BusyWindowFreezesTheOperands : Prop :=
  ∀ s t : State, s.busy = true → (nextTurn s).1 ≠ .engine → (nextTurn s).1 ≠ .reset → step s = .next t →
    t.busy = true ∧ t.done = s.done ∧ t.recBuf = s.recBuf ∧ t.keyStore = s.keyStore ∧ t.idxoff = s.idxoff ∧
      t.arg0 = s.arg0 ∧ t.arg1 = s.arg1 ∧ t.result = s.result ∧ t.locked = s.locked ∧ t.cmdL = s.cmdL ∧
      t.wselL = s.wselL ∧ t.a0L = s.a0L ∧ t.a1L = s.a1L

/-- R61, R109, R159, R160: with no reset among the turns, an accepted command completes with the whole effect it has in the state it
finds at first, whatever the host does in the turns before. That a busy engine moves once no turn is listed is the model's form
of weak fairness (notes/assumptions/3.md). -/
def Obligations.AcceptedCommandCompletesWithItsEffect : Prop :=
  ∀ (s u : State) (i : Instr), s.Inv → s.busy = true → latched s = some i → Turn.reset ∉ s.sched → exec i s = .next u →
    ∃ (k : Nat) (t : State), k ≤ s.sched.length + 1 ∧ core.run k s = .next t ∧ t.busy = false ∧ t.done = true ∧
      t.recBuf = u.recBuf ∧ t.result = u.result ∧ t.locked = u.locked ∧ t.keyStore = u.keyStore ∧ t.idxoff = u.idxoff

/-- R132: a fault raised while BUSY = 1 is BUSY_ACCESS, BAD_ACCESS or MISALIGNED, leaves the command in flight, and the command
still completes with its whole effect, beside the fault record. -/
def Obligations.CommandInFlightSurvivesAFault : Prop :=
  ∀ (s u : State) (x : Access) (f : FaultCode) (i : Instr), s.busy = true → s.fault = false →
    accessCheck s x = some f → exec i s = .next u →
    (f = .busyAccess ∨ f = .badAccess ∨ f = .misaligned) ∧ u.busy = false ∧ u.done = true ∧
    busAccess x s = .next (recorded x f.code s) ∧
    exec i (recorded x f.code s) = .next (recorded x f.code u)

/-- R35, R54, R74, R90 (the secrecy of KEY and IDXOFF): two states that differ only in the secrets answer every step alike, in everything
the host can see, but for the completion of XORWIN, CIPHER and CIPHER_REC, which write the payload under the key. -/
def Obligations.NothingButBlockCompletionsDependsOnSecrets : Prop :=
  ∀ s t s' : State, sameButSecrets s t →
    ((nextTurn s).1 = .engine → s.busy = true →
      latched s ≠ some .xorwin ∧ latched s ≠ some .cipher ∧ latched s ≠ some .cipherRec) →
    step s = .next s' → ∃ t', step t = .next t' ∧ sameButSecrets s' t'

/-- R60, R82: the BCE's part of a host access depends on the transaction and on the BCE alone, so programs with the same
transactions drive it alike; and so does a completion. -/
def Obligations.SameTransactionDrivesTheBceAlike : Prop :=
  ∀ s t : State, sameBce s t →
    (∀ (x : Access) (s' : State), busAccess x s = .next s' →
      ∃ t', busAccess x t = .next t' ∧ sameBce s' t' ∧ (x.dir = .read → s'.rdata = t'.rdata)) ∧
    (∀ s' : State, engineTurn s = .next s' → ∃ t', engineTurn t = .next t' ∧ sameBce s' t')

/-! ### The host's program -/

/-- R78: a host statement that is no bus transaction does no step of the BCE. -/
def Obligations.HostStatementsDoNoBceStep : Prop :=
  ∀ (s : State) (st : Stmt), (nextTurn s).1 = .host → currentStmt s = some st → transactionOf s st = none →
    ∃ t, step s = .next t ∧ sameBce s t

/-- R78: what li, addi, andi and shli leave in hD, modulo 2^64, and that they change nothing else but the place. -/
def Obligations.HostArithmeticWritesItsRegister : Prop :=
  ∀ (s : State) (hD hS : HReg) (imm : Word) (k : Nat) (rest : List Turn), s.host.status = .running →
    s.sched = .host :: rest →
    let after (v : Word) : State :=
      { s with sched := rest, host := { s.host with place := s.host.place + 1, regs := s.host.regs.set hD v } }
    (s.host.prog[s.host.place]? = some (.li hD imm) → step s = .next (after imm)) ∧
    (s.host.prog[s.host.place]? = some (.addi hD hS imm) →
      step s = .next (after (BitVec.ofNat 64 ((s.host.regs[hS].toNat + imm.toNat) % 2 ^ 64)))) ∧
    (s.host.prog[s.host.place]? = some (.andi hD hS imm) → step s = .next (after (s.host.regs[hS] &&& imm))) ∧
    (s.host.prog[s.host.place]? = some (.shli hD hS k) →
      step s = .next (after (BitVec.ofNat 64 (s.host.regs[hS].toNat * 2 ^ k % 2 ^ 64))))

/-- R78, R80: bne, beq and bltu go to their label when the comparison holds (unsigned for bltu), if the program has it, and on when
it does not, whatever the label; an assertion that holds goes on. A label stands where the program has it, and 1b is the nearest
before the branch. -/
def Obligations.HostBranchesCompareByValue : Prop :=
  ∀ (s : State) (hS : HReg) (v : Src) (tg : Target) (rest : List Turn), s.host.status = .running →
    s.sched = .host :: rest →
    let goes (q : Nat) : State := { s with sched := rest, host := { s.host with place := q } }
    let next : Nat := s.host.place + 1
    (s.host.prog[s.host.place]? = some (.bne hS v tg) →
      (s.host.regs[hS] ≠ srcValue s v → ∀ p, targetPlace s tg = some p → step s = .next (goes p)) ∧
      (s.host.regs[hS] = srcValue s v → step s = .next (goes next))) ∧
    (s.host.prog[s.host.place]? = some (.beq hS v tg) →
      (s.host.regs[hS] = srcValue s v → ∀ p, targetPlace s tg = some p → step s = .next (goes p)) ∧
      (s.host.regs[hS] ≠ srcValue s v → step s = .next (goes next))) ∧
    (s.host.prog[s.host.place]? = some (.bltu hS v tg) →
      (s.host.regs[hS].toNat < (srcValue s v).toNat → ∀ p, targetPlace s tg = some p → step s = .next (goes p)) ∧
      (¬ s.host.regs[hS].toNat < (srcValue s v).toNat → step s = .next (goes next))) ∧
    (s.host.prog[s.host.place]? = some (.assert hS v) → s.host.regs[hS] = srcValue s v →
      step s = .next (goes next)) ∧
    ∀ p, targetPlace s tg = some p →
      (∀ l, tg = .label l ∨ tg = .back l → s.host.prog[p]? = some (.label l)) ∧
      ∀ l, tg = .back l → p < s.host.place ∧ ∀ q, p < q → q < s.host.place → s.host.prog[q]? ≠ some (.label l)

/-- R77: st is the write of its operand, ld the read, each at the offset it names or at the low 21 bits of [hA]; ld leaves the value
read in hD. -/
def Obligations.HostLoadsAndStoresAreBusAccesses : Prop :=
  ∀ (s : State) (n : Width) (hD hA : HReg) (src : Src) (rest : List Turn), s.host.status = .running →
    s.sched = .host :: rest →
    let s1 : State := { s with sched := rest, host := { s.host with place := s.host.place + 1 } }
    (∀ a, s.host.prog[s.host.place]? = some (.st n (.at a) src) →
      step s = busAccess { dir := .write, off := a, width := n, data := srcValue s src } s1) ∧
    (s.host.prog[s.host.place]? = some (.st n (.reg hA) src) →
      step s = busAccess
        { dir := .write, off := BitVec.ofNat 21 s.host.regs[hA].toNat, width := n, data := srcValue s src } s1) ∧
    (∀ a, s.host.prog[s.host.place]? = some (.ld n hD (.at a)) →
      ∃ u t, busAccess { dir := .read, off := a, width := n, data := 0 } s1 = .next u ∧ step s = .next t ∧
        t = { u with host := { u.host with regs := u.host.regs.set hD u.rdata } }) ∧
    (s.host.prog[s.host.place]? = some (.ld n hD (.reg hA)) →
      ∃ u t, busAccess
          { dir := .read, off := BitVec.ofNat 21 s.host.regs[hA].toNat, width := n, data := 0 } s1 = .next u ∧
        step s = .next t ∧ t = { u with host := { u.host with regs := u.host.regs.set hD u.rdata } })

/-! ### The cipher -/

/-- R40, R93: the index hash is a bijection on IDX_BITS-bit values. -/
def Obligations.IndexHashIsABijection : Prop :=
  ∀ c : Config,
    (∀ x y : Word, truncIdx c x = x → truncIdx c y = y → hashIndex c x = hashIndex c y → x = y) ∧
    ∀ y : Word, truncIdx c y = y → ∃ x, truncIdx c x = x ∧ hashIndex c x = y

/-- R94: byte k of IH(x) and of IH(y) differ exactly when byte k of x and of y differ. -/
def Obligations.IndexHashIsByteLocal : Prop :=
  ∀ (c : Config) (x y : Word) (k : Nat), k < c.idxBytes →
    ((hashIndex c x).extractLsb' (8 * k) 8 = (hashIndex c y).extractLsb' (8 * k) 8 ↔
      x.extractLsb' (8 * k) 8 = y.extractLsb' (8 * k) 8)

/-- R85: a window that is selected, by SUBKEY or by a block command, lies inside the key words and the key bytes. -/
def Obligations.SelectedWindowsStayInsideTheKey : Prop :=
  (∀ (c : Config) (o : Word) (wb len : Nat), len ≤ c.keyBytes / wb →
    windowStart c o wb len + len ≤ c.keyBytes / wb ∧ (windowStart c o wb len + len) * wb ≤ c.keyBytes) ∧
  ∀ (c : Config) (o : Word), selectStart c o + c.blockWords ≤ c.keyBytes / c.wBytes ∧
    (selectStart c o + c.blockWords) * c.wBytes ≤ c.keyBytes

/-- R106: XORWIN, CIPHER or CIPHER_REC run twice with the same operand, whatever happens between that leaves KEY, IDXOFF, the lock and
REC alone, restores the record. KEY and IDXOFF are unchanged by the runs. -/
def Obligations.BlockCommandsAreInvolutions : Prop :=
  ∀ (i : Instr) (s : State), i = .xorwin ∨ i = .cipher ∨ i = .cipherRec → s.Inv → s.idle → s.locked = true →
    ∃ t, issueAndComplete i s = .next t ∧ t.keyStore = s.keyStore ∧ t.idxoff = s.idxoff ∧
      issueAndComplete i t = .next { t with recBuf := s.recBuf } ∧
      ∀ u : State, u.idle → u.cfg = s.cfg → u.locked = true → u.keyStore = s.keyStore → u.idxoff = s.idxoff →
        u.arg0 = s.arg0 → u.recBuf = t.recBuf → ∃ v, issueAndComplete i u = .next v ∧ v.recBuf = s.recBuf

/-- R107: CIPHER with index x leaves the payload that XORWIN leaves at ARG0 = IH(x ^ IDXOFF), and HASH of x ^ IDXOFF returns that
ARG0. -/
def Obligations.CipherIsXorwinAtTheHashedOffset : Prop :=
  ∀ s : State, s.Inv → s.idle → s.locked = true →
    ∃ t u w, issueAndComplete .cipher s = .next t ∧
      issueAndComplete .hash { s with arg0 := truncIdx s.cfg s.arg0 ^^^ s.idxoff } = .next w ∧
      issueAndComplete .xorwin { s with arg0 := w.result } = .next u ∧ t.recBuf = u.recBuf

/-- R104: CIPHER_REC gives the payload of CIPHER with ARG0 = le(REC[0 .. IDX_BYTES]). -/
def Obligations.CipherRecIsCipherAtTheRecordIndex : Prop :=
  ∀ s : State, s.idle → s.locked = true →
    ∃ t u, issueAndComplete .cipherRec s = .next t ∧
      issueAndComplete .cipher { s with arg0 := le (s.recBuf.read 0 s.cfg.idxBytes) } = .next u ∧
      t.recBuf = u.recBuf

/-- R110: two transforms of one payload, each any of XORWIN, CIPHER and CIPHER_REC with its own operand, leave P ^ W(s1) ^ W(s2) for the
starts s1 and s2 of their windows, and in the other order the same record; two payloads transformed with the same start differ
after as they did before. -/
def Obligations.SuccessiveTransformsComposeByXor : Prop :=
  (∀ (i j : Instr) (s : State) (o1 o2 : Word) (n1 n2 : Nat), s.Inv → s.idle → s.locked = true →
    blockStart i o1 s = some n1 → blockStart j o2 s = some n2 →
    ∃ t u v w, issueAndComplete i { s with arg0 := o1 } = .next t ∧ issueAndComplete j { t with arg0 := o2 } = .next u ∧
      issueAndComplete j { s with arg0 := o2 } = .next v ∧ issueAndComplete i { v with arg0 := o1 } = .next w ∧
      u.recBuf = w.recBuf ∧
      ∀ k, s.cfg.idxBytes ≤ k → k < s.cfg.recBytes →
        u.recBuf.get k = s.recBuf.get k ^^^ s.keyStore.get (n1 * s.cfg.wBytes + (k - s.cfg.idxBytes)) ^^^
          s.keyStore.get (n2 * s.cfg.wBytes + (k - s.cfg.idxBytes))) ∧
  ∀ (i j : Instr) (s s' : State) (n : Nat), s.Inv → s'.Inv → s.idle → s'.idle → s.locked = true → s'.locked = true →
    s.cfg = s'.cfg → s.keyStore = s'.keyStore → blockStart i s.arg0 s = some n → blockStart j s'.arg0 s' = some n →
    ∃ t t', issueAndComplete i s = .next t ∧ issueAndComplete j s' = .next t' ∧
      ∀ k, s.cfg.idxBytes ≤ k → k < s.cfg.recBytes →
        t.recBuf.get k ^^^ t'.recBuf.get k = s.recBuf.get k ^^^ s'.recBuf.get k

/-- R42, R111: the record after a transform depends on KEY, IDXOFF, the latched index, the record and the configuration, and on nothing
else. -/
def Obligations.TransformsKeepNoHistory : Prop :=
  ∀ (i : Instr) (s t s' : State), i = .xorwin ∨ i = .cipher ∨ i = .cipherRec → s.busy = true → t.busy = true →
    s.cfg = t.cfg → s.keyStore = t.keyStore → s.idxoff = t.idxoff → s.a0L = t.a0L → s.recBuf = t.recBuf →
    exec i s = .next s' → ∃ t', exec i t = .next t' ∧ s'.recBuf = t'.recBuf

/-- R9, R144: elaboration accepts exactly the parameters that meet every constraint of R9, SBOX being a permutation of the bytes. -/
def Obligations.ElaborationAcceptsExactlyLegalParameters : Prop :=
  ∀ p : Params, (∃ c, elaborate p = .ok c ∧ c.toParams = p) ↔
    (p.wBytes = 1 ∨ p.wBytes = 2 ∨ p.wBytes = 4 ∨ p.wBytes = 8) ∧ p.align = p.wBytes ∧
    (1 ≤ p.blockWords ∧ p.blockWords ≤ 65535) ∧ p.blockWords ≤ p.keyBytes / p.wBytes ∧
    p.blockBytes = p.blockWords * p.wBytes ∧ (p.idxBytes = 4 ∨ p.idxBytes = 8) ∧ p.idxBytes % p.wBytes = 0 ∧
    (1 ≤ p.keyBytes ∧ p.keyBytes ≤ 0x100000) ∧ p.idxBytes + p.blockBytes ≤ 0x1000 ∧
    Function.Bijective (substitute p.sbox) ∧ p.usizeBits = 64 ∧ 1 ≤ p.tMod
end

