-- ==== Sys2Proof/Laws/Decode.lean ====
section
/-! SUPPORT. The decoder: what it reads of each command's fields. -/

namespace Sys2Proof

/-- The opcode map reads a command back from its opcode and WSEL (30_encoding R69). -/
theorem commandOf_fields (i : Instr) : commandOf i.opc i.wsel = some i := by
  cases i with
  | subkey wb => cases wb <;> rfl
  | _ => rfl

/-- What the decoder answers, by its fields (30_encoding R69, R70). -/
theorem decodeWord_ok {v : Word} {i : Instr} (h : decodeWord v = .ok i) :
    rsvField v = 0 ∧ commandOf (opcField v) (wselField v) = some i ∧ (opcField v = 0x3 ∨ wselField v = 0) := by
  unfold decodeWord at h
  split at h
  · cases h
  · rename_i hr
    split at h
    · cases h
    · rename_i j hj
      split at h
      · cases h
      · rename_i hw
        cases h
        exact ⟨by simpa using hr, hj, by by_cases ho : opcField v = 0x3 <;> simp_all⟩

/-- The eight bytes of a CTRL value put together again. -/
theorem ctrlBytes_append (v : Word) :
    (v.extractLsb' 56 8 ++ v.extractLsb' 48 8 ++ v.extractLsb' 40 8 ++ v.extractLsb' 32 8 ++ v.extractLsb' 24 8 ++
      v.extractLsb' 16 8 ++ v.extractLsb' 8 8 ++ v.extractLsb' 0 8 : BitVec (8 + 8 + 8 + 8 + 8 + 8 + 8 + 8)) = v := by
  apply BitVec.eq_of_getLsbD_eq
  intro i hi
  simp only [BitVec.getLsbD_append, BitVec.getLsbD_extractLsb']
  have : i < 64 := hi
  interval_cases i <;> simp

/-- The decoder of bytes is the decoder of the word they are (20_memory R48). -/
theorem decode_ctrlBytes (v : Word) :
    decode (ctrlBytes v) = match decodeWord v with | .ok i => .ok (i, []) | .error e => .error e := by
  cases hd : decodeWord v <;> simp only [ctrlBytes, decode, ctrlBytes_append, hd]

end Sys2Proof
end

