-- ==== Sys2Proof/Laws/Bytes.lean ====
section
/-! SUPPORT. Little-endian words: the bytes of a word, the word of some bytes, and the two round trips. -/

namespace Sys2Proof.Machine

@[simp] theorem bytesOf_length (n : Nat) (v : Word) : (bytesOf n v).length = n := by
  induction n generalizing v with
  | zero => rfl
  | succ n ih => simp [bytesOf, ih]

/-- Byte `k` of a word is its bits [8k+7:8k] (20_memory R48). -/
theorem bytesOf_getElem (n : Nat) (v : Word) (k : Nat) (hk : k < (bytesOf n v).length) :
    (bytesOf n v)[k] = v.extractLsb' (8 * k) 8 := by
  induction n generalizing v k with
  | zero => simp [bytesOf] at hk
  | succ n ih =>
    cases k with
    | zero => ext i hi; simp [bytesOf]
    | succ k =>
      simp only [bytesOf, List.getElem_cons_succ]
      rw [ih]
      ext i hi
      simp only [BitVec.getElem_extractLsb', BitVec.getLsbD_ushiftRight]
      congr 1; omega

/-- Bit `i` of the word of some bytes is bit `i mod 8` of byte `i / 8` (00_scope R13). -/
theorem le_getLsbD (bs : List Byte) (i : Nat) (hi : i < 64) :
    (le bs).getLsbD i = (bs.getD (i / 8) 0).getLsbD (i % 8) := by
  induction bs generalizing i with
  | nil => simp [le]
  | cons b bs ih =>
    simp only [le, BitVec.getLsbD_or, BitVec.getLsbD_shiftLeft, BitVec.getLsbD_setWidth]
    by_cases h8 : i < 8
    · have : i / 8 = 0 := by omega
      have h2 : i % 8 = i := by omega
      simp [h8, hi, this, h2]
    · have h1 : i / 8 = (i - 8) / 8 + 1 := by omega
      have h2 : i % 8 = (i - 8) % 8 := by omega
      rw [ih (i - 8) (by omega), h1, h2]
      simp [h8, hi, BitVec.getLsbD_of_ge b i (by omega)]

/-- Byte `k` of the word of some bytes is the `k`-th of them (00_scope R13). -/
theorem le_extract (bs : List Byte) (k : Nat) (hk : k < 8) : (le bs).extractLsb' (8 * k) 8 = bs.getD k 0 := by
  ext i hi
  rw [BitVec.getElem_extractLsb', le_getLsbD bs _ (by omega)]
  have h1 : (8 * k + i) / 8 = k := by omega
  have h2 : (8 * k + i) % 8 = i := by omega
  rw [h1, h2, BitVec.getLsbD_eq_getElem hi]

/-- The bytes of the word of at most eight bytes are those bytes. -/
theorem bytesOf_le (bs : List Byte) (h : bs.length ≤ 8) : bytesOf bs.length (le bs) = bs := by
  apply List.ext_getElem (by simp)
  intro k h1 h2
  rw [bytesOf_getElem, le_extract bs k (by omega)]
  simp [h2]

/-- Two words with the same eight bytes are equal. -/
theorem word_ext {v w : Word} (h : ∀ k < 8, v.extractLsb' (8 * k) 8 = w.extractLsb' (8 * k) 8) : v = w := by
  apply BitVec.eq_of_getLsbD_eq
  intro i hi
  have hb := congrArg (fun b : BitVec 8 => b.getLsbD (i % 8)) (h (i / 8) (by omega))
  have h8 : i % 8 < 8 := Nat.mod_lt _ (by decide)
  simp only [BitVec.getLsbD_extractLsb', h8, decide_true, Bool.true_and, Nat.div_add_mod] at hb
  exact hb

/-- The word of the low `n` bytes of a word keeps its low `8 * n` bits. -/
theorem le_bytesOf (n : Nat) (v : Word) : le (bytesOf n v) = (v.setWidth (8 * n)).setWidth 64 := by
  apply BitVec.eq_of_getLsbD_eq
  intro i hi
  rw [le_getLsbD _ _ hi]
  simp only [BitVec.getLsbD_setWidth, hi, decide_true, Bool.true_and]
  by_cases hn : i / 8 < n
  · rw [List.getD_eq_getElem _ _ (by simpa using hn), bytesOf_getElem]
    have h8 : i % 8 < 8 := Nat.mod_lt _ (by decide)
    simp only [BitVec.getLsbD_extractLsb', h8, decide_true, Bool.true_and, Nat.div_add_mod]
    have : i < 8 * n := by omega
    simp [this]
  · have : ¬ i < 8 * n := by omega
    rw [List.getD_eq_default _ _ (show (bytesOf n v).length ≤ i / 8 by simpa using hn)]
    simp [this]

/-- The bytes of an exclusive-or are those of its operands, byte by byte. -/
theorem bytesOf_xor (n : Nat) (v w : Word) :
    bytesOf n (v ^^^ w) = List.zipWith (· ^^^ ·) (bytesOf n v) (bytesOf n w) := by
  induction n generalizing v w with
  | zero => rfl
  | succ n ih =>
    simp only [bytesOf, List.zipWith_cons_cons, BitVec.ushiftRight_xor_distrib, ih]
    congr 1
    ext i hi; simp

end Sys2Proof.Machine
end

