-- ==== Sys2Proof/Laws/Elaborate.lean ====
section
/-! SUPPORT. What the constraints of 00_scope R9 give for every configuration that is hardware. -/

namespace Sys2Proof

/-- A check that names no error was passed, and so were the checks after it. -/
theorem none_of_ite {α : Type} {p : Prop} [Decidable p] {e : α} {rest : Option α}
    (h : (if p then some e else rest) = none) : ¬ p ∧ rest = none := by
  by_cases hp : p
  · rw [if_pos hp] at h; cases h
  · rw [if_neg hp] at h; exact ⟨hp, h⟩

/-- Every constraint of 00_scope R9, for any configuration of a State. -/
theorem Config.constraints (c : Config) :
    (c.wBytes = 1 ∨ c.wBytes = 2 ∨ c.wBytes = 4 ∨ c.wBytes = 8) ∧ c.align = c.wBytes ∧
    (1 ≤ c.blockWords ∧ c.blockWords ≤ 65535) ∧ c.blockBytes = c.blockWords * c.wBytes ∧
    (c.idxBytes = 4 ∨ c.idxBytes = 8) ∧ c.idxBytes % c.wBytes = 0 ∧
    (1 ≤ c.keyBytes ∧ c.keyBytes ≤ 0x100000) ∧ c.blockWords ≤ c.keyElements c.wBytes ∧ c.recBytes ≤ 0x1000 ∧
    c.sbox.toList.Nodup ∧ c.usizeBits = 64 ∧ c.tMod ≠ 0 := by
  have h := c.ok
  unfold Params.error? at h
  obtain ⟨h1, h⟩ := none_of_ite h
  obtain ⟨h2, h⟩ := none_of_ite h
  obtain ⟨h3, h⟩ := none_of_ite h
  obtain ⟨h4, h⟩ := none_of_ite h
  obtain ⟨h5, h⟩ := none_of_ite h
  obtain ⟨h6, h⟩ := none_of_ite h
  obtain ⟨h7, h⟩ := none_of_ite h
  obtain ⟨h8, h⟩ := none_of_ite h
  obtain ⟨h9, h⟩ := none_of_ite h
  obtain ⟨h10, h⟩ := none_of_ite h
  obtain ⟨h11, h⟩ := none_of_ite h
  obtain ⟨h12, _⟩ := none_of_ite h
  exact ⟨not_not.1 h1, not_not.1 h2, not_not.1 h3, not_not.1 h4, not_not.1 h5, not_not.1 h6, not_not.1 h7, not_not.1 h8,
    not_not.1 h9, not_not.1 h10, not_not.1 h11, h12⟩

theorem Config.wBytes_cases (c : Config) : c.wBytes = 1 ∨ c.wBytes = 2 ∨ c.wBytes = 4 ∨ c.wBytes = 8 :=
  c.constraints.1

theorem Config.wBytes_pos (c : Config) : 0 < c.wBytes := by rcases c.wBytes_cases with h | h | h | h <;> omega

theorem Config.wBytes_le (c : Config) : c.wBytes ≤ 8 := by rcases c.wBytes_cases with h | h | h | h <;> omega

theorem Config.blockWords_bounds (c : Config) : 1 ≤ c.blockWords ∧ c.blockWords ≤ 65535 := c.constraints.2.2.1

theorem Config.blockBytes_eq (c : Config) : c.blockBytes = c.blockWords * c.wBytes := c.constraints.2.2.2.1

theorem Config.idxBytes_cases (c : Config) : c.idxBytes = 4 ∨ c.idxBytes = 8 := c.constraints.2.2.2.2.1

theorem Config.idxBytes_le (c : Config) : c.idxBytes ≤ 8 := by rcases c.idxBytes_cases with h | h <;> omega

theorem Config.keyBytes_bounds (c : Config) : 1 ≤ c.keyBytes ∧ c.keyBytes ≤ 0x100000 := c.constraints.2.2.2.2.2.2.1

theorem Config.blockWords_le (c : Config) : c.blockWords ≤ c.keyElements c.wBytes := c.constraints.2.2.2.2.2.2.2.1

theorem Config.recBytes_le (c : Config) : c.recBytes ≤ 0x1000 := c.constraints.2.2.2.2.2.2.2.2.1

theorem Config.sbox_nodup (c : Config) : c.sbox.toList.Nodup := c.constraints.2.2.2.2.2.2.2.2.2.1

/-- REC is the index field and L payload words. -/
theorem Config.recBytes_eq (c : Config) : c.recBytes = c.idxBytes + c.blockWords * c.wBytes := by
  rw [Params.recBytes, c.blockBytes_eq]

/-- The key words fill no more than the key store (00_scope R11). -/
theorem Params.keyElements_mul_le (p : Params) (wb : Nat) : p.keyElements wb * wb ≤ p.keyBytes :=
  Nat.div_mul_le_self _ _

end Sys2Proof
end

