-- ==== Sys2Proof/Laws/Memory.lean ====
section
/-! SUPPORT. Byte arrays: read after write, the canonical form and that every operation keeps it, and equality by bytes. -/

namespace Sys2Proof.Machine

/-! ### One byte -/

/-- The canonical form of an array with a first entry. -/
theorem Memory.wfBelow_cons {n low x : Nat} {b : Byte} {m : Memory} :
    Memory.wfBelow n low ((x, b) :: m) = true ↔ low ≤ x ∧ x < n ∧ b ≠ 0 ∧ m.wfBelow n (x + 1) = true := by
  simp only [Memory.wfBelow, Bool.and_eq_true, decide_eq_true_eq, bne_iff_ne, and_assoc]

/-- Below the first index of a canonical array every byte is unlisted. -/
theorem Memory.get_of_lt {n low : Nat} {m : Memory} (h : m.wfBelow n low = true) {a : Nat} (ha : a < low) :
    m.get a = 0 := by
  induction m generalizing low with
  | nil => rfl
  | cons c m ih =>
    obtain ⟨x, b⟩ := c
    obtain ⟨h1, _, _, h4⟩ := Memory.wfBelow_cons.1 h
    have : a ≠ x := by omega
    simp [Memory.get, this, ih h4 (by omega)]

/-- A byte that is not below the array's size is unlisted. -/
theorem Memory.get_of_ge {n low : Nat} {m : Memory} (h : m.wfBelow n low = true) {a : Nat} (ha : n ≤ a) :
    m.get a = 0 := by
  induction m generalizing low with
  | nil => rfl
  | cons c m ih =>
    obtain ⟨x, b⟩ := c
    obtain ⟨_, h2, _, h4⟩ := Memory.wfBelow_cons.1 h
    have : a ≠ x := by omega
    simp [Memory.get, this, ih h4]

/-- Setting a byte leaves every other byte alone, in canonical form or not. -/
theorem Memory.get_set_ne (m : Memory) {a x : Nat} (v : Byte) (h : x ≠ a) : (m.set a v).get x = m.get x := by
  induction m with
  | nil => simp only [Memory.set]; split <;> simp [Memory.get, h]
  | cons c m ih =>
    obtain ⟨y, b⟩ := c
    simp only [Memory.set]
    split
    · split <;> simp [Memory.get, h]
    · split
      · rename_i _ e
        subst e
        split <;> simp [Memory.get, h]
      · simp [Memory.get, ih]

/-- A byte just set reads back. -/
theorem Memory.get_set_same {n low : Nat} {m : Memory} (h : m.wfBelow n low = true) (a : Nat) (v : Byte) :
    (m.set a v).get a = v := by
  induction m generalizing low with
  | nil => simp only [Memory.set]; split <;> simp_all [Memory.get]
  | cons c m ih =>
    obtain ⟨y, b⟩ := c
    obtain ⟨_, _, _, h4⟩ := Memory.wfBelow_cons.1 h
    simp only [Memory.set]
    split
    · rename_i hlt
      split
      · rename_i hv
        have hy : a ≠ y := by omega
        simp [Memory.get, hy, hv, Memory.get_of_lt h4 (show a < y + 1 by omega)]
      · simp [Memory.get]
    · split
      · rename_i e
        subst e
        split
        · rename_i hv
          rw [hv, Memory.get_of_lt h4 (by omega)]
        · simp [Memory.get]
      · rename_i hne
        simp [Memory.get, hne, ih h4]

/-- A lower bound of the indexes may be lowered. -/
theorem Memory.wfBelow_mono {n low low' : Nat} {m : Memory} (h : m.wfBelow n low = true) (hl : low' ≤ low) :
    m.wfBelow n low' = true := by
  cases m with
  | nil => rfl
  | cons c m =>
    obtain ⟨h1, h2⟩ := Memory.wfBelow_cons.1 h
    exact Memory.wfBelow_cons.2 ⟨by omega, h2⟩

/-- Setting a byte keeps the canonical form. -/
theorem Memory.wfBelow_set {n low : Nat} {m : Memory} (h : m.wfBelow n low = true) {a : Nat} (v : Byte) (hl : low ≤ a)
    (hn : a < n) : (m.set a v).wfBelow n low = true := by
  induction m generalizing low with
  | nil =>
    simp only [Memory.set]
    split
    · rfl
    · rename_i hv
      exact Memory.wfBelow_cons.2 ⟨hl, hn, hv, rfl⟩
  | cons c m ih =>
    obtain ⟨y, b⟩ := c
    obtain ⟨h1, h2, h3, h4⟩ := Memory.wfBelow_cons.1 h
    simp only [Memory.set]
    split
    · rename_i hlt
      split
      · exact h
      · rename_i hv
        exact Memory.wfBelow_cons.2 ⟨hl, hn, hv, Memory.wfBelow_cons.2 ⟨by omega, h2, h3, h4⟩⟩
    · split
      · rename_i e
        subst e
        split
        · exact Memory.wfBelow_mono h4 (by omega)
        · rename_i hv
          exact Memory.wfBelow_cons.2 ⟨hl, hn, hv, h4⟩
      · exact Memory.wfBelow_cons.2 ⟨h1, h2, h3, ih h4 (by omega)⟩

/-- Setting a byte of the array keeps it canonical. -/
theorem Memory.wf_set {n : Nat} {m : Memory} (h : m.wf n = true) {a : Nat} (v : Byte) (hn : a < n) :
    (m.set a v).wf n = true :=
  Memory.wfBelow_set h v (Nat.zero_le a) hn

/-- The empty array is canonical. -/
@[simp] theorem Memory.wf_nil (n : Nat) : Memory.wf n [] = true := rfl

/-- Canonical arrays with the same bytes are equal. -/
theorem Memory.ext_of_wf {n low : Nat} {m m' : Memory} (h : m.wfBelow n low = true) (h' : m'.wfBelow n low = true)
    (hb : ∀ a, m.get a = m'.get a) : m = m' := by
  induction m generalizing low m' with
  | nil =>
    cases m' with
    | nil => rfl
    | cons c m' =>
      obtain ⟨x, b⟩ := c
      have := hb x
      simp [Memory.get] at this
      exact absurd this.symm (Memory.wfBelow_cons.1 h').2.2.1
  | cons c m ih =>
    obtain ⟨x, b⟩ := c
    obtain ⟨h1, h2, h3, h4⟩ := Memory.wfBelow_cons.1 h
    cases m' with
    | nil =>
      have := hb x
      simp [Memory.get] at this
      exact absurd this h3
    | cons c' m' =>
      obtain ⟨y, b'⟩ := c'
      obtain ⟨k1, k2, k3, k4⟩ := Memory.wfBelow_cons.1 h'
      have hxy : x = y := by
        rcases Nat.lt_trichotomy x y with hlt | he | hgt
        · have := hb x
          have e : x ≠ y := by omega
          simp [Memory.get, e, Memory.get_of_lt k4 (show x < y + 1 by omega)] at this
          exact absurd this h3
        · exact he
        · have := hb y
          have e : y ≠ x := by omega
          simp [Memory.get, e, Memory.get_of_lt h4 (show y < x + 1 by omega)] at this
          exact absurd this.symm k3
      subst hxy
      have hbb : b = b' := by simpa [Memory.get] using hb x
      subst hbb
      congr 1
      apply ih h4 k4
      intro a
      by_cases ha : a = x
      · rw [Memory.get_of_lt h4 (by omega), Memory.get_of_lt k4 (by omega)]
      · simpa [Memory.get, ha] using hb a

/-! ### Runs of bytes -/

@[simp] theorem Memory.read_length (m : Memory) (a n : Nat) : (m.read a n).length = n := by
  induction n generalizing a with
  | zero => rfl
  | succ n ih => simp [Memory.read, ih]

/-- Byte `k` of a run is byte `a + k` of the array. -/
theorem Memory.read_getElem (m : Memory) (a n k : Nat) (hk : k < (m.read a n).length) :
    (m.read a n)[k] = m.get (a + k) := by
  induction n generalizing a k with
  | zero => simp [Memory.read] at hk
  | succ n ih =>
    cases k with
    | zero => simp [Memory.read]
    | succ k =>
      simp only [Memory.read, List.getElem_cons_succ]
      rw [ih]
      congr 1; omega

/-- Storing a run inside the array keeps it canonical. -/
theorem Memory.wf_write {n : Nat} {m : Memory} (h : m.wf n = true) {a : Nat} {bs : List Byte}
    (hn : a + bs.length ≤ n) : (m.write a bs).wf n = true := by
  induction bs generalizing m a with
  | nil => exact h
  | cons b bs ih =>
    simp only [List.length_cons] at hn
    exact ih (Memory.wf_set h b (by omega)) (by omega)

/-- Storing a run leaves every byte outside it alone, in canonical form or not. -/
theorem Memory.get_write_out (m : Memory) {a x : Nat} {bs : List Byte} (h : x < a ∨ a + bs.length ≤ x) :
    (m.write a bs).get x = m.get x := by
  induction bs generalizing m a with
  | nil => rfl
  | cons b bs ih =>
    simp only [List.length_cons] at h
    rw [Memory.write, ih _ (by omega), Memory.get_set_ne _ _ (by omega)]

/-- A stored run reads back, byte by byte. -/
theorem Memory.get_write_in {n : Nat} {m : Memory} (h : m.wf n = true) {a k : Nat} {bs : List Byte}
    (hn : a + bs.length ≤ n) (hk : k < bs.length) : (m.write a bs).get (a + k) = bs[k] := by
  induction bs generalizing m a k with
  | nil => simp at hk
  | cons b bs ih =>
    simp only [List.length_cons] at hn hk
    cases k with
    | zero =>
      rw [Memory.write, Memory.get_write_out _ (by omega)]
      exact Memory.get_set_same h a b
    | succ k =>
      have := ih (Memory.wf_set h b (show a < n by omega)) (a := a + 1) (k := k) (by omega) (by omega)
      rw [Memory.write, show a + (k + 1) = a + 1 + k by omega, this]
      rfl

end Sys2Proof.Machine
end

