-- ==== Sys2Proof/Laws/Operands.lean ====
section
/-! SUPPORT. Truncation, the index hash byte by byte, the window selector's bounds, and the XOR datapath byte by byte. -/

namespace Sys2Proof.Machine

/-! ### The index -/

/-- The bits of a truncated index. -/
theorem truncIdx_getLsbD (c : Config) (x : Word) (i : Nat) :
    (truncIdx c x).getLsbD i = (decide (i < c.idxBits) && x.getLsbD i) := by
  simp only [truncIdx, BitVec.getLsbD_setWidth]
  by_cases hi : i < 64
  · simp [hi]
  · simp [hi, BitVec.getLsbD_of_ge x i (by omega)]

/-- Truncating twice is truncating once. -/
@[simp] theorem truncIdx_truncIdx (c : Config) (x : Word) : truncIdx c (truncIdx c x) = truncIdx c x := by
  apply BitVec.eq_of_getLsbD_eq
  intro i _
  simp [truncIdx_getLsbD]

/-- Truncation goes through an exclusive-or. -/
theorem truncIdx_xor (c : Config) (x y : Word) : truncIdx c (x ^^^ y) = truncIdx c x ^^^ truncIdx c y := by
  apply BitVec.eq_of_getLsbD_eq
  intro i _
  simp only [truncIdx_getLsbD, BitVec.getLsbD_xor]
  cases decide (i < c.idxBits) <;> simp

@[simp] theorem truncIdx_zero (c : Config) : truncIdx c 0 = 0 := by
  apply BitVec.eq_of_getLsbD_eq
  intro i _
  simp [truncIdx_getLsbD]

/-- Byte `k` of a truncated index. -/
theorem truncIdx_extract (c : Config) (x : Word) (k : Nat) :
    (truncIdx c x).extractLsb' (8 * k) 8 = if k < c.idxBytes then x.extractLsb' (8 * k) 8 else 0 := by
  ext i hi
  simp only [BitVec.getElem_extractLsb', truncIdx_getLsbD, Params.idxBits]
  split
  · have : 8 * k + i < 8 * c.idxBytes := by omega
    simp [this, BitVec.getElem_extractLsb']
  · have : ¬ 8 * k + i < 8 * c.idxBytes := by omega
    simp [this]

/-! ### The index hash -/

/-- Byte `k` of the hash is the S-box image of byte `k` (41_index_hash R91, R94). -/
theorem indexHash_extract (sbox : Vector Byte 256) (n : Nat) (x : Word) (k : Nat) (hk : k < 8) :
    (indexHash sbox n x).extractLsb' (8 * k) 8 =
      if k < n then substitute sbox (x.extractLsb' (8 * k) 8) else 0 := by
  rw [indexHash, le_extract _ _ hk]
  split
  · rename_i h
    rw [List.getD_eq_getElem _ _ (by simpa using h), List.getElem_map, bytesOf_getElem]
  · rename_i h
    rw [List.getD_eq_default _ _ (by simpa using h)]

/-- The table sends distinct bytes to distinct bytes (10_state R40). -/
theorem substitute_injective {sbox : Vector Byte 256} (h : sbox.toList.Nodup) :
    Function.Injective (substitute sbox) := by
  intro a b hab
  have hlen : sbox.toList.length = 256 := by simp
  have ha : a.toNat < sbox.toList.length := by rw [hlen]; exact a.isLt
  have hb : b.toNat < sbox.toList.length := by rw [hlen]; exact b.isLt
  have : sbox.toList[a.toNat] = sbox.toList[b.toNat] := by simpa [substitute] using hab
  exact BitVec.eq_of_toNat_eq ((h.getElem_inj_iff).1 this)

/-- The hash is IDX_BITS wide. -/
theorem truncIdx_hashIndex (c : Config) (x : Word) : truncIdx c (hashIndex c x) = hashIndex c x := by
  apply word_ext
  intro k hk
  rw [truncIdx_extract, hashIndex, indexHash_extract _ _ _ _ hk]
  split <;> simp_all

/-! ### The window selector -/

/-- A selected window ends inside the key's word view (40_subkey R83, R85). -/
theorem windowStart_add_le (c : Config) (o : Word) (wb len : Nat) (h : len ≤ c.keyElements wb) :
    windowStart c o wb len + len ≤ c.keyElements wb := by
  have := Nat.mod_lt o.toNat (show 0 < c.keyElements wb - len + 1 by omega)
  simp only [windowStart]
  omega

/-- The datapath's window ends inside the key's word view (42_cipher R99). -/
theorem selectStart_add_le (c : Config) (o : Word) : selectStart c o + c.blockWords ≤ c.keyElements c.wBytes :=
  windowStart_add_le c o _ _ c.blockWords_le

/-! ### The XOR datapath -/

/-- One lane, byte by byte, on a canonical record (42_cipher R101). -/
theorem xorLane_get (c : Config) (key : Memory) (start i : Nat) {rec : Memory} (hw : rec.wf c.recBytes = true)
    (hi : i < c.blockWords) (j : Nat) :
    (xorLane c key start i rec).get j =
      if payloadAt c i ≤ j ∧ j < payloadAt c i + c.wBytes then
        rec.get j ^^^ key.get ((start + i) * c.wBytes + (j - payloadAt c i))
      else rec.get j := by
  have hend : payloadAt c i + c.wBytes ≤ c.recBytes := by
    have : (i + 1) * c.wBytes ≤ c.blockWords * c.wBytes := Nat.mul_le_mul_right _ hi
    rw [c.recBytes_eq, payloadAt]; rw [Nat.succ_mul] at this; omega
  have h8 := c.wBytes_le
  have hbs : bytesOf c.wBytes (payloadWord c rec i ^^^ keyWord key c.wBytes (start + i)) =
      List.zipWith (· ^^^ ·) (rec.read (payloadAt c i) c.wBytes) (key.read ((start + i) * c.wBytes) c.wBytes) := by
    have h1 : bytesOf c.wBytes (payloadWord c rec i) = rec.read (payloadAt c i) c.wBytes := by
      have := bytesOf_le (rec.read (payloadAt c i) c.wBytes) (by simpa using h8)
      simpa [payloadWord] using this
    have h2 : bytesOf c.wBytes (keyWord key c.wBytes (start + i)) = key.read ((start + i) * c.wBytes) c.wBytes := by
      have := bytesOf_le (key.read ((start + i) * c.wBytes) c.wBytes) (by simpa using h8)
      simpa [keyWord] using this
    rw [bytesOf_xor, h1, h2]
  rw [xorLane, hbs]
  split
  · rename_i hj
    obtain ⟨k, rfl⟩ : ∃ k, j = payloadAt c i + k := ⟨j - payloadAt c i, by omega⟩
    have hk : k < c.wBytes := by omega
    rw [Memory.get_write_in hw (by simpa using hend) (by simpa using hk)]
    rw [List.getElem_zipWith, Memory.read_getElem, Memory.read_getElem]
    congr 2; omega
  · rename_i hj
    exact Memory.get_write_out _ (by simp; omega)

/-- One lane keeps the record canonical. -/
theorem xorLane_wf (c : Config) (key : Memory) (start i : Nat) {rec : Memory} (hw : rec.wf c.recBytes = true)
    (hi : i < c.blockWords) : (xorLane c key start i rec).wf c.recBytes = true := by
  apply Memory.wf_write hw
  have : (i + 1) * c.wBytes ≤ c.blockWords * c.wBytes := Nat.mul_le_mul_right _ hi
  rw [Nat.succ_mul] at this
  simp only [bytesOf_length, payloadAt, c.recBytes_eq]
  omega

/-- The first `n` lanes: canonical, and byte by byte. -/
theorem xorLanes_spec (c : Config) (key : Memory) (start n : Nat) {rec : Memory} (hw : rec.wf c.recBytes = true)
    (hn : n ≤ c.blockWords) :
    (xorLanes c key start n rec).wf c.recBytes = true ∧
    ∀ j, (xorLanes c key start n rec).get j =
      if c.idxBytes ≤ j ∧ j < c.idxBytes + n * c.wBytes then
        rec.get j ^^^ key.get (start * c.wBytes + (j - c.idxBytes))
      else rec.get j := by
  induction n with
  | zero => exact ⟨hw, fun j => by simp [xorLanes]⟩
  | succ n ih =>
    obtain ⟨ih1, ih2⟩ := ih (by omega)
    refine ⟨xorLane_wf c key start n ih1 hn, fun j => ?_⟩
    rw [xorLanes, xorLane_get c key start n ih1 hn j, ih2 j]
    simp only [payloadAt, Nat.succ_mul, Nat.add_mul]
    by_cases h1 : c.idxBytes + n * c.wBytes ≤ j ∧ j < c.idxBytes + n * c.wBytes + c.wBytes
    · have h2 : ¬ (c.idxBytes ≤ j ∧ j < c.idxBytes + n * c.wBytes) := by omega
      have h3 : c.idxBytes ≤ j ∧ j < c.idxBytes + (n * c.wBytes + c.wBytes) := by omega
      rw [if_pos h1, if_neg h2, if_pos h3]
      congr 2; omega
    · rw [if_neg h1]
      by_cases h2 : c.idxBytes ≤ j ∧ j < c.idxBytes + n * c.wBytes
      · rw [if_pos h2, if_pos (by omega)]
      · rw [if_neg h2, if_neg (by omega)]

/-- `xor_block`, byte by byte: the byte rule of 20_memory R49 on the payload, and no other byte. -/
theorem xorBlock_get (c : Config) (key : Memory) (start : Nat) {rec : Memory} (hw : rec.wf c.recBytes = true) (j : Nat) :
    (xorBlock c key start rec).get j =
      if c.idxBytes ≤ j ∧ j < c.recBytes then rec.get j ^^^ key.get (start * c.wBytes + (j - c.idxBytes))
      else rec.get j := by
  rw [xorBlock, (xorLanes_spec c key start _ hw (Nat.le_refl _)).2 j, c.recBytes_eq]

/-- `xor_block` leaves the index field alone (42_cipher R101). -/
theorem xorBlock_index (c : Config) (key : Memory) (start : Nat) {rec : Memory} (hw : rec.wf c.recBytes = true) :
    (xorBlock c key start rec).read 0 c.idxBytes = rec.read 0 c.idxBytes := by
  apply List.ext_getElem (by simp)
  intro k h1 _
  rw [Memory.read_getElem, Memory.read_getElem, xorBlock_get _ _ _ hw, if_neg]
  simp only [Memory.read_length] at h1
  omega

/-- `xor_block` keeps the record canonical. -/
theorem xorBlock_wf (c : Config) (key : Memory) (start : Nat) {rec : Memory} (hw : rec.wf c.recBytes = true) :
    (xorBlock c key start rec).wf c.recBytes = true :=
  (xorLanes_spec c key start _ hw (Nat.le_refl _)).1

/-- Byte `k` of the configuration's index hash (41_index_hash R91). -/
theorem hashIndex_extract (c : Config) (x : Word) {k : Nat} (hk : k < c.idxBytes) :
    (hashIndex c x).extractLsb' (8 * k) 8 = substitute c.sbox (x.extractLsb' (8 * k) 8) := by
  have := c.idxBytes_le
  rw [hashIndex, indexHash_extract _ _ _ _ (by omega), if_pos hk]

/-- A table without repeats sends some byte to each byte (10_state R40). -/
theorem substitute_surjective {sbox : Vector Byte 256} (h : sbox.toList.Nodup) :
    Function.Surjective (substitute sbox) := by
  have inj : Function.Injective (fun i : Fin 256 => (substitute sbox (BitVec.ofFin i)).toFin) := fun a b hab =>
    congrArg BitVec.toFin (substitute_injective h (BitVec.eq_of_toFin_eq hab))
  intro b
  obtain ⟨a, ha⟩ := Finite.surjective_of_injective inj b.toFin
  exact ⟨BitVec.ofFin a, BitVec.eq_of_toFin_eq ha⟩

end Sys2Proof.Machine
end

