-- ==== Sys2Proof/Laws/State.lean ====
section
/-! SUPPORT. What each update of the state does to each field: one lemma per field per update. -/

namespace Sys2Proof.Machine

/-! ### Acceptance -/

@[simp] theorem accept_cfg (i : Instr) (s : State) : (accept i s).cfg = s.cfg := rfl
@[simp] theorem accept_arg0 (i : Instr) (s : State) : (accept i s).arg0 = s.arg0 := rfl
@[simp] theorem accept_arg1 (i : Instr) (s : State) : (accept i s).arg1 = s.arg1 := rfl
@[simp] theorem accept_result (i : Instr) (s : State) : (accept i s).result = s.result := rfl
@[simp] theorem accept_idxoff (i : Instr) (s : State) : (accept i s).idxoff = s.idxoff := rfl
@[simp] theorem accept_irqen (i : Instr) (s : State) : (accept i s).irqen = s.irqen := rfl
@[simp] theorem accept_busy (i : Instr) (s : State) : (accept i s).busy = true := rfl
@[simp] theorem accept_done (i : Instr) (s : State) : (accept i s).done = false := rfl
@[simp] theorem accept_locked (i : Instr) (s : State) : (accept i s).locked = s.locked := rfl
@[simp] theorem accept_fault (i : Instr) (s : State) : (accept i s).fault = s.fault := rfl
@[simp] theorem accept_errcode (i : Instr) (s : State) : (accept i s).errcode = s.errcode := rfl
@[simp] theorem accept_errinfo (i : Instr) (s : State) : (accept i s).errinfo = s.errinfo := rfl
@[simp] theorem accept_recBuf (i : Instr) (s : State) : (accept i s).recBuf = s.recBuf := rfl
@[simp] theorem accept_keyStore (i : Instr) (s : State) : (accept i s).keyStore = s.keyStore := rfl
@[simp] theorem accept_cmdL (i : Instr) (s : State) : (accept i s).cmdL = i.opc := rfl
@[simp] theorem accept_wselL (i : Instr) (s : State) : (accept i s).wselL = i.wsel := rfl
@[simp] theorem accept_a0L (i : Instr) (s : State) : (accept i s).a0L = s.arg0 := rfl
@[simp] theorem accept_a1L (i : Instr) (s : State) : (accept i s).a1L = s.arg1 := rfl
@[simp] theorem accept_rdata (i : Instr) (s : State) : (accept i s).rdata = s.rdata := rfl
@[simp] theorem accept_host (i : Instr) (s : State) : (accept i s).host = s.host := rfl
@[simp] theorem accept_sched (i : Instr) (s : State) : (accept i s).sched = s.sched := rfl

/-! ### Completion -/

@[simp] theorem complete_cfg (e : State → State) (s : State) : (complete e s).cfg = (e s).cfg := rfl
@[simp] theorem complete_arg0 (e : State → State) (s : State) : (complete e s).arg0 = (e s).arg0 := rfl
@[simp] theorem complete_arg1 (e : State → State) (s : State) : (complete e s).arg1 = (e s).arg1 := rfl
@[simp] theorem complete_result (e : State → State) (s : State) : (complete e s).result = (e s).result := rfl
@[simp] theorem complete_idxoff (e : State → State) (s : State) : (complete e s).idxoff = (e s).idxoff := rfl
@[simp] theorem complete_irqen (e : State → State) (s : State) : (complete e s).irqen = (e s).irqen := rfl
@[simp] theorem complete_busy (e : State → State) (s : State) : (complete e s).busy = false := rfl
@[simp] theorem complete_done (e : State → State) (s : State) : (complete e s).done = true := rfl
@[simp] theorem complete_locked (e : State → State) (s : State) : (complete e s).locked = (e s).locked := rfl
@[simp] theorem complete_fault (e : State → State) (s : State) : (complete e s).fault = (e s).fault := rfl
@[simp] theorem complete_errcode (e : State → State) (s : State) : (complete e s).errcode = (e s).errcode := rfl
@[simp] theorem complete_errinfo (e : State → State) (s : State) : (complete e s).errinfo = (e s).errinfo := rfl
@[simp] theorem complete_recBuf (e : State → State) (s : State) : (complete e s).recBuf = (e s).recBuf := rfl
@[simp] theorem complete_keyStore (e : State → State) (s : State) : (complete e s).keyStore = (e s).keyStore := rfl
@[simp] theorem complete_cmdL (e : State → State) (s : State) : (complete e s).cmdL = (e s).cmdL := rfl
@[simp] theorem complete_wselL (e : State → State) (s : State) : (complete e s).wselL = (e s).wselL := rfl
@[simp] theorem complete_a0L (e : State → State) (s : State) : (complete e s).a0L = (e s).a0L := rfl
@[simp] theorem complete_a1L (e : State → State) (s : State) : (complete e s).a1L = (e s).a1L := rfl
@[simp] theorem complete_rdata (e : State → State) (s : State) : (complete e s).rdata = (e s).rdata := rfl
@[simp] theorem complete_host (e : State → State) (s : State) : (complete e s).host = (e s).host := rfl
@[simp] theorem complete_sched (e : State → State) (s : State) : (complete e s).sched = (e s).sched := rfl

/-! ### The effect of LOCK -/

@[simp] theorem lockEffect_cfg (s : State) : (lockEffect s).cfg = s.cfg := rfl
@[simp] theorem lockEffect_arg0 (s : State) : (lockEffect s).arg0 = s.arg0 := rfl
@[simp] theorem lockEffect_arg1 (s : State) : (lockEffect s).arg1 = s.arg1 := rfl
@[simp] theorem lockEffect_result (s : State) : (lockEffect s).result = s.result := rfl
@[simp] theorem lockEffect_idxoff (s : State) : (lockEffect s).idxoff = s.idxoff := rfl
@[simp] theorem lockEffect_irqen (s : State) : (lockEffect s).irqen = s.irqen := rfl
@[simp] theorem lockEffect_busy (s : State) : (lockEffect s).busy = s.busy := rfl
@[simp] theorem lockEffect_done (s : State) : (lockEffect s).done = s.done := rfl
@[simp] theorem lockEffect_locked (s : State) : (lockEffect s).locked = true := rfl
@[simp] theorem lockEffect_fault (s : State) : (lockEffect s).fault = s.fault := rfl
@[simp] theorem lockEffect_errcode (s : State) : (lockEffect s).errcode = s.errcode := rfl
@[simp] theorem lockEffect_errinfo (s : State) : (lockEffect s).errinfo = s.errinfo := rfl
@[simp] theorem lockEffect_recBuf (s : State) : (lockEffect s).recBuf = s.recBuf := rfl
@[simp] theorem lockEffect_keyStore (s : State) : (lockEffect s).keyStore = s.keyStore := rfl
@[simp] theorem lockEffect_cmdL (s : State) : (lockEffect s).cmdL = s.cmdL := rfl
@[simp] theorem lockEffect_wselL (s : State) : (lockEffect s).wselL = s.wselL := rfl
@[simp] theorem lockEffect_a0L (s : State) : (lockEffect s).a0L = s.a0L := rfl
@[simp] theorem lockEffect_a1L (s : State) : (lockEffect s).a1L = s.a1L := rfl
@[simp] theorem lockEffect_rdata (s : State) : (lockEffect s).rdata = s.rdata := rfl
@[simp] theorem lockEffect_host (s : State) : (lockEffect s).host = s.host := rfl
@[simp] theorem lockEffect_sched (s : State) : (lockEffect s).sched = s.sched := rfl

/-! ### The effect of HASH -/

@[simp] theorem hashEffect_cfg (s : State) : (hashEffect s).cfg = s.cfg := rfl
@[simp] theorem hashEffect_arg0 (s : State) : (hashEffect s).arg0 = s.arg0 := rfl
@[simp] theorem hashEffect_arg1 (s : State) : (hashEffect s).arg1 = s.arg1 := rfl
@[simp] theorem hashEffect_result (s : State) : (hashEffect s).result = hashIndex s.cfg (truncIdx s.cfg s.a0L) := rfl
@[simp] theorem hashEffect_idxoff (s : State) : (hashEffect s).idxoff = s.idxoff := rfl
@[simp] theorem hashEffect_irqen (s : State) : (hashEffect s).irqen = s.irqen := rfl
@[simp] theorem hashEffect_busy (s : State) : (hashEffect s).busy = s.busy := rfl
@[simp] theorem hashEffect_done (s : State) : (hashEffect s).done = s.done := rfl
@[simp] theorem hashEffect_locked (s : State) : (hashEffect s).locked = s.locked := rfl
@[simp] theorem hashEffect_fault (s : State) : (hashEffect s).fault = s.fault := rfl
@[simp] theorem hashEffect_errcode (s : State) : (hashEffect s).errcode = s.errcode := rfl
@[simp] theorem hashEffect_errinfo (s : State) : (hashEffect s).errinfo = s.errinfo := rfl
@[simp] theorem hashEffect_recBuf (s : State) : (hashEffect s).recBuf = s.recBuf := rfl
@[simp] theorem hashEffect_keyStore (s : State) : (hashEffect s).keyStore = s.keyStore := rfl
@[simp] theorem hashEffect_cmdL (s : State) : (hashEffect s).cmdL = s.cmdL := rfl
@[simp] theorem hashEffect_wselL (s : State) : (hashEffect s).wselL = s.wselL := rfl
@[simp] theorem hashEffect_a0L (s : State) : (hashEffect s).a0L = s.a0L := rfl
@[simp] theorem hashEffect_a1L (s : State) : (hashEffect s).a1L = s.a1L := rfl
@[simp] theorem hashEffect_rdata (s : State) : (hashEffect s).rdata = s.rdata := rfl
@[simp] theorem hashEffect_host (s : State) : (hashEffect s).host = s.host := rfl
@[simp] theorem hashEffect_sched (s : State) : (hashEffect s).sched = s.sched := rfl

/-! ### The effect of SUBKEY -/

@[simp] theorem subkeyEffect_cfg (wb : Width) (s : State) : (subkeyEffect wb s).cfg = s.cfg := rfl
@[simp] theorem subkeyEffect_arg0 (wb : Width) (s : State) : (subkeyEffect wb s).arg0 = s.arg0 := rfl
@[simp] theorem subkeyEffect_arg1 (wb : Width) (s : State) : (subkeyEffect wb s).arg1 = s.arg1 := rfl
@[simp] theorem subkeyEffect_result (wb : Width) (s : State) : (subkeyEffect wb s).result = BitVec.ofNat 64 (windowStart s.cfg s.a0L wb.bytes s.a1L.toNat) := rfl
@[simp] theorem subkeyEffect_idxoff (wb : Width) (s : State) : (subkeyEffect wb s).idxoff = s.idxoff := rfl
@[simp] theorem subkeyEffect_irqen (wb : Width) (s : State) : (subkeyEffect wb s).irqen = s.irqen := rfl
@[simp] theorem subkeyEffect_busy (wb : Width) (s : State) : (subkeyEffect wb s).busy = s.busy := rfl
@[simp] theorem subkeyEffect_done (wb : Width) (s : State) : (subkeyEffect wb s).done = s.done := rfl
@[simp] theorem subkeyEffect_locked (wb : Width) (s : State) : (subkeyEffect wb s).locked = s.locked := rfl
@[simp] theorem subkeyEffect_fault (wb : Width) (s : State) : (subkeyEffect wb s).fault = s.fault := rfl
@[simp] theorem subkeyEffect_errcode (wb : Width) (s : State) : (subkeyEffect wb s).errcode = s.errcode := rfl
@[simp] theorem subkeyEffect_errinfo (wb : Width) (s : State) : (subkeyEffect wb s).errinfo = s.errinfo := rfl
@[simp] theorem subkeyEffect_recBuf (wb : Width) (s : State) : (subkeyEffect wb s).recBuf = s.recBuf := rfl
@[simp] theorem subkeyEffect_keyStore (wb : Width) (s : State) : (subkeyEffect wb s).keyStore = s.keyStore := rfl
@[simp] theorem subkeyEffect_cmdL (wb : Width) (s : State) : (subkeyEffect wb s).cmdL = s.cmdL := rfl
@[simp] theorem subkeyEffect_wselL (wb : Width) (s : State) : (subkeyEffect wb s).wselL = s.wselL := rfl
@[simp] theorem subkeyEffect_a0L (wb : Width) (s : State) : (subkeyEffect wb s).a0L = s.a0L := rfl
@[simp] theorem subkeyEffect_a1L (wb : Width) (s : State) : (subkeyEffect wb s).a1L = s.a1L := rfl
@[simp] theorem subkeyEffect_rdata (wb : Width) (s : State) : (subkeyEffect wb s).rdata = s.rdata := rfl
@[simp] theorem subkeyEffect_host (wb : Width) (s : State) : (subkeyEffect wb s).host = s.host := rfl
@[simp] theorem subkeyEffect_sched (wb : Width) (s : State) : (subkeyEffect wb s).sched = s.sched := rfl

/-! ### The effect of the block transforms -/

@[simp] theorem xorPayload_cfg (n : Nat) (s : State) : (xorPayload n s).cfg = s.cfg := rfl
@[simp] theorem xorPayload_arg0 (n : Nat) (s : State) : (xorPayload n s).arg0 = s.arg0 := rfl
@[simp] theorem xorPayload_arg1 (n : Nat) (s : State) : (xorPayload n s).arg1 = s.arg1 := rfl
@[simp] theorem xorPayload_result (n : Nat) (s : State) : (xorPayload n s).result = s.result := rfl
@[simp] theorem xorPayload_idxoff (n : Nat) (s : State) : (xorPayload n s).idxoff = s.idxoff := rfl
@[simp] theorem xorPayload_irqen (n : Nat) (s : State) : (xorPayload n s).irqen = s.irqen := rfl
@[simp] theorem xorPayload_busy (n : Nat) (s : State) : (xorPayload n s).busy = s.busy := rfl
@[simp] theorem xorPayload_done (n : Nat) (s : State) : (xorPayload n s).done = s.done := rfl
@[simp] theorem xorPayload_locked (n : Nat) (s : State) : (xorPayload n s).locked = s.locked := rfl
@[simp] theorem xorPayload_fault (n : Nat) (s : State) : (xorPayload n s).fault = s.fault := rfl
@[simp] theorem xorPayload_errcode (n : Nat) (s : State) : (xorPayload n s).errcode = s.errcode := rfl
@[simp] theorem xorPayload_errinfo (n : Nat) (s : State) : (xorPayload n s).errinfo = s.errinfo := rfl
@[simp] theorem xorPayload_recBuf (n : Nat) (s : State) : (xorPayload n s).recBuf = xorBlock s.cfg s.keyStore n s.recBuf := rfl
@[simp] theorem xorPayload_keyStore (n : Nat) (s : State) : (xorPayload n s).keyStore = s.keyStore := rfl
@[simp] theorem xorPayload_cmdL (n : Nat) (s : State) : (xorPayload n s).cmdL = s.cmdL := rfl
@[simp] theorem xorPayload_wselL (n : Nat) (s : State) : (xorPayload n s).wselL = s.wselL := rfl
@[simp] theorem xorPayload_a0L (n : Nat) (s : State) : (xorPayload n s).a0L = s.a0L := rfl
@[simp] theorem xorPayload_a1L (n : Nat) (s : State) : (xorPayload n s).a1L = s.a1L := rfl
@[simp] theorem xorPayload_rdata (n : Nat) (s : State) : (xorPayload n s).rdata = s.rdata := rfl
@[simp] theorem xorPayload_host (n : Nat) (s : State) : (xorPayload n s).host = s.host := rfl
@[simp] theorem xorPayload_sched (n : Nat) (s : State) : (xorPayload n s).sched = s.sched := rfl

/-! ### Reset -/

@[simp] theorem applyReset_cfg (s : State) : (applyReset s).cfg = s.cfg := rfl
@[simp] theorem applyReset_arg0 (s : State) : (applyReset s).arg0 = 0 := rfl
@[simp] theorem applyReset_arg1 (s : State) : (applyReset s).arg1 = 0 := rfl
@[simp] theorem applyReset_result (s : State) : (applyReset s).result = 0 := rfl
@[simp] theorem applyReset_idxoff (s : State) : (applyReset s).idxoff = 0 := rfl
@[simp] theorem applyReset_irqen (s : State) : (applyReset s).irqen = 0 := rfl
@[simp] theorem applyReset_busy (s : State) : (applyReset s).busy = false := rfl
@[simp] theorem applyReset_done (s : State) : (applyReset s).done = false := rfl
@[simp] theorem applyReset_locked (s : State) : (applyReset s).locked = false := rfl
@[simp] theorem applyReset_fault (s : State) : (applyReset s).fault = false := rfl
@[simp] theorem applyReset_errcode (s : State) : (applyReset s).errcode = 0 := rfl
@[simp] theorem applyReset_errinfo (s : State) : (applyReset s).errinfo = 0 := rfl
@[simp] theorem applyReset_recBuf (s : State) : (applyReset s).recBuf = [] := rfl
@[simp] theorem applyReset_keyStore (s : State) : (applyReset s).keyStore = [] := rfl
@[simp] theorem applyReset_cmdL (s : State) : (applyReset s).cmdL = 0 := rfl
@[simp] theorem applyReset_wselL (s : State) : (applyReset s).wselL = 0 := rfl
@[simp] theorem applyReset_a0L (s : State) : (applyReset s).a0L = 0 := rfl
@[simp] theorem applyReset_a1L (s : State) : (applyReset s).a1L = 0 := rfl
@[simp] theorem applyReset_rdata (s : State) : (applyReset s).rdata = s.rdata := rfl
@[simp] theorem applyReset_host (s : State) : (applyReset s).host = s.host := rfl
@[simp] theorem applyReset_sched (s : State) : (applyReset s).sched = s.sched := rfl

/-! ### The host's registers -/

@[simp] theorem setHostReg_cfg (r : HReg) (v : Word) (s : State) : (setHostReg r v s).cfg = s.cfg := rfl
@[simp] theorem setHostReg_arg0 (r : HReg) (v : Word) (s : State) : (setHostReg r v s).arg0 = s.arg0 := rfl
@[simp] theorem setHostReg_arg1 (r : HReg) (v : Word) (s : State) : (setHostReg r v s).arg1 = s.arg1 := rfl
@[simp] theorem setHostReg_result (r : HReg) (v : Word) (s : State) : (setHostReg r v s).result = s.result := rfl
@[simp] theorem setHostReg_idxoff (r : HReg) (v : Word) (s : State) : (setHostReg r v s).idxoff = s.idxoff := rfl
@[simp] theorem setHostReg_irqen (r : HReg) (v : Word) (s : State) : (setHostReg r v s).irqen = s.irqen := rfl
@[simp] theorem setHostReg_busy (r : HReg) (v : Word) (s : State) : (setHostReg r v s).busy = s.busy := rfl
@[simp] theorem setHostReg_done (r : HReg) (v : Word) (s : State) : (setHostReg r v s).done = s.done := rfl
@[simp] theorem setHostReg_locked (r : HReg) (v : Word) (s : State) : (setHostReg r v s).locked = s.locked := rfl
@[simp] theorem setHostReg_fault (r : HReg) (v : Word) (s : State) : (setHostReg r v s).fault = s.fault := rfl
@[simp] theorem setHostReg_errcode (r : HReg) (v : Word) (s : State) : (setHostReg r v s).errcode = s.errcode := rfl
@[simp] theorem setHostReg_errinfo (r : HReg) (v : Word) (s : State) : (setHostReg r v s).errinfo = s.errinfo := rfl
@[simp] theorem setHostReg_recBuf (r : HReg) (v : Word) (s : State) : (setHostReg r v s).recBuf = s.recBuf := rfl
@[simp] theorem setHostReg_keyStore (r : HReg) (v : Word) (s : State) : (setHostReg r v s).keyStore = s.keyStore := rfl
@[simp] theorem setHostReg_cmdL (r : HReg) (v : Word) (s : State) : (setHostReg r v s).cmdL = s.cmdL := rfl
@[simp] theorem setHostReg_wselL (r : HReg) (v : Word) (s : State) : (setHostReg r v s).wselL = s.wselL := rfl
@[simp] theorem setHostReg_a0L (r : HReg) (v : Word) (s : State) : (setHostReg r v s).a0L = s.a0L := rfl
@[simp] theorem setHostReg_a1L (r : HReg) (v : Word) (s : State) : (setHostReg r v s).a1L = s.a1L := rfl
@[simp] theorem setHostReg_rdata (r : HReg) (v : Word) (s : State) : (setHostReg r v s).rdata = s.rdata := rfl
@[simp] theorem setHostReg_host (r : HReg) (v : Word) (s : State) : (setHostReg r v s).host = { s.host with regs := s.host.regs.set r v } := rfl
@[simp] theorem setHostReg_sched (r : HReg) (v : Word) (s : State) : (setHostReg r v s).sched = s.sched := rfl

/-! ### The host's place -/

@[simp] theorem setPlace_cfg (p : Nat) (s : State) : (setPlace p s).cfg = s.cfg := rfl
@[simp] theorem setPlace_arg0 (p : Nat) (s : State) : (setPlace p s).arg0 = s.arg0 := rfl
@[simp] theorem setPlace_arg1 (p : Nat) (s : State) : (setPlace p s).arg1 = s.arg1 := rfl
@[simp] theorem setPlace_result (p : Nat) (s : State) : (setPlace p s).result = s.result := rfl
@[simp] theorem setPlace_idxoff (p : Nat) (s : State) : (setPlace p s).idxoff = s.idxoff := rfl
@[simp] theorem setPlace_irqen (p : Nat) (s : State) : (setPlace p s).irqen = s.irqen := rfl
@[simp] theorem setPlace_busy (p : Nat) (s : State) : (setPlace p s).busy = s.busy := rfl
@[simp] theorem setPlace_done (p : Nat) (s : State) : (setPlace p s).done = s.done := rfl
@[simp] theorem setPlace_locked (p : Nat) (s : State) : (setPlace p s).locked = s.locked := rfl
@[simp] theorem setPlace_fault (p : Nat) (s : State) : (setPlace p s).fault = s.fault := rfl
@[simp] theorem setPlace_errcode (p : Nat) (s : State) : (setPlace p s).errcode = s.errcode := rfl
@[simp] theorem setPlace_errinfo (p : Nat) (s : State) : (setPlace p s).errinfo = s.errinfo := rfl
@[simp] theorem setPlace_recBuf (p : Nat) (s : State) : (setPlace p s).recBuf = s.recBuf := rfl
@[simp] theorem setPlace_keyStore (p : Nat) (s : State) : (setPlace p s).keyStore = s.keyStore := rfl
@[simp] theorem setPlace_cmdL (p : Nat) (s : State) : (setPlace p s).cmdL = s.cmdL := rfl
@[simp] theorem setPlace_wselL (p : Nat) (s : State) : (setPlace p s).wselL = s.wselL := rfl
@[simp] theorem setPlace_a0L (p : Nat) (s : State) : (setPlace p s).a0L = s.a0L := rfl
@[simp] theorem setPlace_a1L (p : Nat) (s : State) : (setPlace p s).a1L = s.a1L := rfl
@[simp] theorem setPlace_rdata (p : Nat) (s : State) : (setPlace p s).rdata = s.rdata := rfl
@[simp] theorem setPlace_host (p : Nat) (s : State) : (setPlace p s).host = { s.host with place := p } := rfl
@[simp] theorem setPlace_sched (p : Nat) (s : State) : (setPlace p s).sched = s.sched := rfl

/-! ### The host's next place -/

@[simp] theorem advance_cfg (s : State) : (advance s).cfg = s.cfg := rfl
@[simp] theorem advance_arg0 (s : State) : (advance s).arg0 = s.arg0 := rfl
@[simp] theorem advance_arg1 (s : State) : (advance s).arg1 = s.arg1 := rfl
@[simp] theorem advance_result (s : State) : (advance s).result = s.result := rfl
@[simp] theorem advance_idxoff (s : State) : (advance s).idxoff = s.idxoff := rfl
@[simp] theorem advance_irqen (s : State) : (advance s).irqen = s.irqen := rfl
@[simp] theorem advance_busy (s : State) : (advance s).busy = s.busy := rfl
@[simp] theorem advance_done (s : State) : (advance s).done = s.done := rfl
@[simp] theorem advance_locked (s : State) : (advance s).locked = s.locked := rfl
@[simp] theorem advance_fault (s : State) : (advance s).fault = s.fault := rfl
@[simp] theorem advance_errcode (s : State) : (advance s).errcode = s.errcode := rfl
@[simp] theorem advance_errinfo (s : State) : (advance s).errinfo = s.errinfo := rfl
@[simp] theorem advance_recBuf (s : State) : (advance s).recBuf = s.recBuf := rfl
@[simp] theorem advance_keyStore (s : State) : (advance s).keyStore = s.keyStore := rfl
@[simp] theorem advance_cmdL (s : State) : (advance s).cmdL = s.cmdL := rfl
@[simp] theorem advance_wselL (s : State) : (advance s).wselL = s.wselL := rfl
@[simp] theorem advance_a0L (s : State) : (advance s).a0L = s.a0L := rfl
@[simp] theorem advance_a1L (s : State) : (advance s).a1L = s.a1L := rfl
@[simp] theorem advance_rdata (s : State) : (advance s).rdata = s.rdata := rfl
@[simp] theorem advance_host (s : State) : (advance s).host = { s.host with place := s.host.place + 1 } := rfl
@[simp] theorem advance_sched (s : State) : (advance s).sched = s.sched := rfl

/-! ### The host stopped -/

@[simp] theorem stopHost_cfg (r : HostStatus) (s : State) : (stopHost r s).cfg = s.cfg := rfl
@[simp] theorem stopHost_arg0 (r : HostStatus) (s : State) : (stopHost r s).arg0 = s.arg0 := rfl
@[simp] theorem stopHost_arg1 (r : HostStatus) (s : State) : (stopHost r s).arg1 = s.arg1 := rfl
@[simp] theorem stopHost_result (r : HostStatus) (s : State) : (stopHost r s).result = s.result := rfl
@[simp] theorem stopHost_idxoff (r : HostStatus) (s : State) : (stopHost r s).idxoff = s.idxoff := rfl
@[simp] theorem stopHost_irqen (r : HostStatus) (s : State) : (stopHost r s).irqen = s.irqen := rfl
@[simp] theorem stopHost_busy (r : HostStatus) (s : State) : (stopHost r s).busy = s.busy := rfl
@[simp] theorem stopHost_done (r : HostStatus) (s : State) : (stopHost r s).done = s.done := rfl
@[simp] theorem stopHost_locked (r : HostStatus) (s : State) : (stopHost r s).locked = s.locked := rfl
@[simp] theorem stopHost_fault (r : HostStatus) (s : State) : (stopHost r s).fault = s.fault := rfl
@[simp] theorem stopHost_errcode (r : HostStatus) (s : State) : (stopHost r s).errcode = s.errcode := rfl
@[simp] theorem stopHost_errinfo (r : HostStatus) (s : State) : (stopHost r s).errinfo = s.errinfo := rfl
@[simp] theorem stopHost_recBuf (r : HostStatus) (s : State) : (stopHost r s).recBuf = s.recBuf := rfl
@[simp] theorem stopHost_keyStore (r : HostStatus) (s : State) : (stopHost r s).keyStore = s.keyStore := rfl
@[simp] theorem stopHost_cmdL (r : HostStatus) (s : State) : (stopHost r s).cmdL = s.cmdL := rfl
@[simp] theorem stopHost_wselL (r : HostStatus) (s : State) : (stopHost r s).wselL = s.wselL := rfl
@[simp] theorem stopHost_a0L (r : HostStatus) (s : State) : (stopHost r s).a0L = s.a0L := rfl
@[simp] theorem stopHost_a1L (r : HostStatus) (s : State) : (stopHost r s).a1L = s.a1L := rfl
@[simp] theorem stopHost_rdata (r : HostStatus) (s : State) : (stopHost r s).rdata = s.rdata := rfl
@[simp] theorem stopHost_host (r : HostStatus) (s : State) : (stopHost r s).host = { s.host with status := r } := rfl
@[simp] theorem stopHost_sched (r : HostStatus) (s : State) : (stopHost r s).sched = s.sched := rfl

/-! ### A raised fault -/

@[simp] theorem raise_cfg (f : FaultCode) (info : Word) (s : State) : (raise f info s).cfg = s.cfg := by
  unfold raise; split <;> rfl
@[simp] theorem raise_arg0 (f : FaultCode) (info : Word) (s : State) : (raise f info s).arg0 = s.arg0 := by
  unfold raise; split <;> rfl
@[simp] theorem raise_arg1 (f : FaultCode) (info : Word) (s : State) : (raise f info s).arg1 = s.arg1 := by
  unfold raise; split <;> rfl
@[simp] theorem raise_result (f : FaultCode) (info : Word) (s : State) : (raise f info s).result = s.result := by
  unfold raise; split <;> rfl
@[simp] theorem raise_idxoff (f : FaultCode) (info : Word) (s : State) : (raise f info s).idxoff = s.idxoff := by
  unfold raise; split <;> rfl
@[simp] theorem raise_irqen (f : FaultCode) (info : Word) (s : State) : (raise f info s).irqen = s.irqen := by
  unfold raise; split <;> rfl
@[simp] theorem raise_busy (f : FaultCode) (info : Word) (s : State) : (raise f info s).busy = s.busy := by
  unfold raise; split <;> rfl
@[simp] theorem raise_done (f : FaultCode) (info : Word) (s : State) : (raise f info s).done = s.done := by
  unfold raise; split <;> rfl
@[simp] theorem raise_locked (f : FaultCode) (info : Word) (s : State) : (raise f info s).locked = s.locked := by
  unfold raise; split <;> rfl
@[simp] theorem raise_recBuf (f : FaultCode) (info : Word) (s : State) : (raise f info s).recBuf = s.recBuf := by
  unfold raise; split <;> rfl
@[simp] theorem raise_keyStore (f : FaultCode) (info : Word) (s : State) : (raise f info s).keyStore = s.keyStore := by
  unfold raise; split <;> rfl
@[simp] theorem raise_cmdL (f : FaultCode) (info : Word) (s : State) : (raise f info s).cmdL = s.cmdL := by
  unfold raise; split <;> rfl
@[simp] theorem raise_wselL (f : FaultCode) (info : Word) (s : State) : (raise f info s).wselL = s.wselL := by
  unfold raise; split <;> rfl
@[simp] theorem raise_a0L (f : FaultCode) (info : Word) (s : State) : (raise f info s).a0L = s.a0L := by
  unfold raise; split <;> rfl
@[simp] theorem raise_a1L (f : FaultCode) (info : Word) (s : State) : (raise f info s).a1L = s.a1L := by
  unfold raise; split <;> rfl
@[simp] theorem raise_rdata (f : FaultCode) (info : Word) (s : State) : (raise f info s).rdata = s.rdata := by
  unfold raise; split <;> rfl
@[simp] theorem raise_host (f : FaultCode) (info : Word) (s : State) : (raise f info s).host = s.host := by
  unfold raise; split <;> rfl
@[simp] theorem raise_sched (f : FaultCode) (info : Word) (s : State) : (raise f info s).sched = s.sched := by
  unfold raise; split <;> rfl
@[simp] theorem raise_fault (f : FaultCode) (info : Word) (s : State) : (raise f info s).fault = true := by
  unfold raise; split <;> simp_all

/-! ### A value returned to the host -/

@[simp] theorem returnRead_cfg (x : Access) (v : Word) (s : State) : (returnRead x v s).cfg = s.cfg := by
  unfold returnRead; split <;> rfl
@[simp] theorem returnRead_arg0 (x : Access) (v : Word) (s : State) : (returnRead x v s).arg0 = s.arg0 := by
  unfold returnRead; split <;> rfl
@[simp] theorem returnRead_arg1 (x : Access) (v : Word) (s : State) : (returnRead x v s).arg1 = s.arg1 := by
  unfold returnRead; split <;> rfl
@[simp] theorem returnRead_result (x : Access) (v : Word) (s : State) : (returnRead x v s).result = s.result := by
  unfold returnRead; split <;> rfl
@[simp] theorem returnRead_idxoff (x : Access) (v : Word) (s : State) : (returnRead x v s).idxoff = s.idxoff := by
  unfold returnRead; split <;> rfl
@[simp] theorem returnRead_irqen (x : Access) (v : Word) (s : State) : (returnRead x v s).irqen = s.irqen := by
  unfold returnRead; split <;> rfl
@[simp] theorem returnRead_busy (x : Access) (v : Word) (s : State) : (returnRead x v s).busy = s.busy := by
  unfold returnRead; split <;> rfl
@[simp] theorem returnRead_done (x : Access) (v : Word) (s : State) : (returnRead x v s).done = s.done := by
  unfold returnRead; split <;> rfl
@[simp] theorem returnRead_locked (x : Access) (v : Word) (s : State) : (returnRead x v s).locked = s.locked := by
  unfold returnRead; split <;> rfl
@[simp] theorem returnRead_fault (x : Access) (v : Word) (s : State) : (returnRead x v s).fault = s.fault := by
  unfold returnRead; split <;> rfl
@[simp] theorem returnRead_errcode (x : Access) (v : Word) (s : State) : (returnRead x v s).errcode = s.errcode := by
  unfold returnRead; split <;> rfl
@[simp] theorem returnRead_errinfo (x : Access) (v : Word) (s : State) : (returnRead x v s).errinfo = s.errinfo := by
  unfold returnRead; split <;> rfl
@[simp] theorem returnRead_recBuf (x : Access) (v : Word) (s : State) : (returnRead x v s).recBuf = s.recBuf := by
  unfold returnRead; split <;> rfl
@[simp] theorem returnRead_keyStore (x : Access) (v : Word) (s : State) : (returnRead x v s).keyStore = s.keyStore := by
  unfold returnRead; split <;> rfl
@[simp] theorem returnRead_cmdL (x : Access) (v : Word) (s : State) : (returnRead x v s).cmdL = s.cmdL := by
  unfold returnRead; split <;> rfl
@[simp] theorem returnRead_wselL (x : Access) (v : Word) (s : State) : (returnRead x v s).wselL = s.wselL := by
  unfold returnRead; split <;> rfl
@[simp] theorem returnRead_a0L (x : Access) (v : Word) (s : State) : (returnRead x v s).a0L = s.a0L := by
  unfold returnRead; split <;> rfl
@[simp] theorem returnRead_a1L (x : Access) (v : Word) (s : State) : (returnRead x v s).a1L = s.a1L := by
  unfold returnRead; split <;> rfl
@[simp] theorem returnRead_host (x : Access) (v : Word) (s : State) : (returnRead x v s).host = s.host := by
  unfold returnRead; split <;> rfl
@[simp] theorem returnRead_sched (x : Access) (v : Word) (s : State) : (returnRead x v s).sched = s.sched := by
  unfold returnRead; split <;> rfl

/-! ### The fault record -/

/-- While FAULT = 1, raising a fault changes nothing (60_exceptions R123). -/
theorem raise_of_fault (f : FaultCode) (info : Word) {s : State} (h : s.fault = true) : raise f info s = s := by
  simp [raise, h]

/-- While FAULT = 0, raising a fault writes the record (60_exceptions R123). -/
theorem raise_of_ok (f : FaultCode) (info : Word) {s : State} (h : s.fault = false) :
    raise f info s = { s with fault := true, errcode := f.code, errinfo := info } := by
  simp [raise, h]

/-- The codes of 60_exceptions R124 are 1 to 7. -/
theorem FaultCode.code_bounds (f : FaultCode) : f.code ≠ 0 ∧ f.code.toNat ≤ 7 := by cases f <;> decide

end Sys2Proof.Machine
end

