-- ==== Sys2Proof/Laws/Command.lean ====
section
/-! SUPPORT. What a command can do: it is issued while the engine is idle and completed while it is busy, and it never stops. -/

namespace Sys2Proof.Machine

/-- The check of each command at acceptance. -/
def commandCheck : Instr → State → Option FaultCode
  | .nop => noCheck
  | .lock => noCheck
  | .hash => noCheck
  | .subkey wb => subkeyCheck wb
  | .xorwin => lockCheck
  | .cipher => lockCheck
  | .cipherRec => lockCheck

/-- The effect of each command at completion. -/
def commandEffect : Instr → State → State
  | .nop => id
  | .lock => lockEffect
  | .hash => hashEffect
  | .subkey wb => subkeyEffect wb
  | .xorwin => xorwinEffect
  | .cipher => cipherEffect
  | .cipherRec => cipherRecEffect

/-- Every meaning is the one shared operation, over its own check and effect. -/
theorem exec_eq_runCommand (i : Instr) (s : State) :
    exec i s = runCommand i (commandCheck i) (commandEffect i) s := by cases i <;> rfl

/-- While BUSY = 1 a command completes. -/
theorem exec_of_busy (i : Instr) {s : State} (h : s.busy = true) :
    exec i s = .next (complete (commandEffect i) s) := by
  rw [exec_eq_runCommand, runCommand, if_pos h]

/-- While BUSY = 0 a command is issued. -/
theorem exec_of_not_busy (i : Instr) {s : State} (h : s.busy = false) :
    exec i s = .next (issue i (commandCheck i) s) := by
  rw [exec_eq_runCommand, runCommand, h]; rfl

/-- A command never stops the machine. -/
theorem exec_next (i : Instr) (s : State) : ∃ t, exec i s = .next t := by
  cases h : s.busy
  · exact ⟨_, exec_of_not_busy i h⟩
  · exact ⟨_, exec_of_busy i h⟩

/-- A command's check passes exactly when its condition holds (30_encoding R73, R74). -/
theorem commandCheck_eq_none (i : Instr) (s : State) : commandCheck i s = none ↔ admitted i s.arg1 s := by
  cases i <;> simp [commandCheck, admitted, noCheck, lockCheck, subkeyCheck]

/-- What issuing a command does: nothing while FAULT = 1, the record of its fault, or its acceptance. -/
theorem issue_cases (i : Instr) (c : State → Option FaultCode) (s : State) :
    (s.fault = true ∧ issue i c s = s) ∨
    (∃ f, s.fault = false ∧ c s = some f ∧ issue i c s = raise f (encodeWord i) s) ∨
    (s.fault = false ∧ c s = none ∧ issue i c s = accept i s) := by
  unfold issue
  cases hf : s.fault
  · cases hc : c s with
    | none => simp
    | some f => simp
  · simp

/-! ### What no command's effect changes -/

@[simp] theorem commandEffect_cfg (i : Instr) (s : State) : (commandEffect i s).cfg = s.cfg := by cases i <;> rfl
@[simp] theorem commandEffect_arg0 (i : Instr) (s : State) : (commandEffect i s).arg0 = s.arg0 := by cases i <;> rfl
@[simp] theorem commandEffect_arg1 (i : Instr) (s : State) : (commandEffect i s).arg1 = s.arg1 := by cases i <;> rfl
@[simp] theorem commandEffect_idxoff (i : Instr) (s : State) : (commandEffect i s).idxoff = s.idxoff := by cases i <;> rfl
@[simp] theorem commandEffect_irqen (i : Instr) (s : State) : (commandEffect i s).irqen = s.irqen := by cases i <;> rfl
@[simp] theorem commandEffect_busy (i : Instr) (s : State) : (commandEffect i s).busy = s.busy := by cases i <;> rfl
@[simp] theorem commandEffect_done (i : Instr) (s : State) : (commandEffect i s).done = s.done := by cases i <;> rfl
@[simp] theorem commandEffect_fault (i : Instr) (s : State) : (commandEffect i s).fault = s.fault := by cases i <;> rfl
@[simp] theorem commandEffect_errcode (i : Instr) (s : State) : (commandEffect i s).errcode = s.errcode := by cases i <;> rfl
@[simp] theorem commandEffect_errinfo (i : Instr) (s : State) : (commandEffect i s).errinfo = s.errinfo := by cases i <;> rfl
@[simp] theorem commandEffect_keyStore (i : Instr) (s : State) : (commandEffect i s).keyStore = s.keyStore := by cases i <;> rfl
@[simp] theorem commandEffect_cmdL (i : Instr) (s : State) : (commandEffect i s).cmdL = s.cmdL := by cases i <;> rfl
@[simp] theorem commandEffect_wselL (i : Instr) (s : State) : (commandEffect i s).wselL = s.wselL := by cases i <;> rfl
@[simp] theorem commandEffect_a0L (i : Instr) (s : State) : (commandEffect i s).a0L = s.a0L := by cases i <;> rfl
@[simp] theorem commandEffect_a1L (i : Instr) (s : State) : (commandEffect i s).a1L = s.a1L := by cases i <;> rfl
@[simp] theorem commandEffect_rdata (i : Instr) (s : State) : (commandEffect i s).rdata = s.rdata := by cases i <;> rfl
@[simp] theorem commandEffect_host (i : Instr) (s : State) : (commandEffect i s).host = s.host := by cases i <;> rfl
@[simp] theorem commandEffect_sched (i : Instr) (s : State) : (commandEffect i s).sched = s.sched := by cases i <;> rfl

/-- LOCK alone writes LOCKED. -/
theorem commandEffect_locked (i : Instr) (s : State) :
    (commandEffect i s).locked = if i = .lock then true else s.locked := by cases i <;> rfl

/-- No command's effect clears LOCKED (43_control R120). -/
theorem commandEffect_locked_of_locked (i : Instr) {s : State} (h : s.locked = true) :
    (commandEffect i s).locked = true := by
  rw [commandEffect_locked]; split <;> simp [h]

/-- Every effect leaves REC as it is or XORs a window into it. -/
theorem commandEffect_recBuf (i : Instr) (s : State) :
    (commandEffect i s).recBuf = s.recBuf ∨
    ∃ n, (commandEffect i s).recBuf = xorBlock s.cfg s.keyStore n s.recBuf := by
  cases i
  case xorwin => exact .inr ⟨_, rfl⟩
  case cipher => exact .inr ⟨_, rfl⟩
  case cipherRec => exact .inr ⟨_, rfl⟩
  all_goals exact .inl rfl

/-- Every effect keeps REC canonical. -/
theorem commandEffect_recForm (i : Instr) {s : State} (h : s.recBuf.wf s.cfg.recBytes = true) :
    (commandEffect i s).recBuf.wf s.cfg.recBytes = true := by
  rcases commandEffect_recBuf i s with he | ⟨n, he⟩ <;> rw [he]
  · exact h
  · exact xorBlock_wf _ _ _ h

/-- A block command's effect is `xor_block` at the start of its window, and nothing else. -/
theorem commandEffect_of_blockStart {i : Instr} {s : State} {n : Nat} (h : blockStart i s.a0L s = some n) :
    commandEffect i s = xorPayload n s := by
  cases i <;> simp only [blockStart, Option.some.injEq, reduceCtorEq] at h <;> subst h <;> rfl

/-- A command that selects a window needs LOCKED = 1, and no more (30_encoding R74). -/
theorem admitted_of_blockStart {i : Instr} {o len : Word} {s : State} {n : Nat} (h : blockStart i o s = some n)
    (hl : s.locked = true) : admitted i len s := by
  cases i <;> first | exact hl | exact trivial | simp [blockStart] at h

/-- A command issued and admitted is accepted and completes: its effect on the state of its acceptance. -/
theorem issueAndComplete_of_admitted {i : Instr} {s : State} (h : s.idle) (ha : admitted i s.arg1 s) :
    issueAndComplete i s = .next (complete (commandEffect i) (accept i s)) := by
  have : issue i (commandCheck i) s = accept i s := by
    simp [issue, h.2, (commandCheck_eq_none i s).2 ha]
  rw [issueAndComplete, exec_of_not_busy i h.1, this]
  exact exec_of_busy i rfl

end Sys2Proof.Machine
end

