-- ==== Sys2Proof/Laws/Bus.lean ====
section
/-! SUPPORT. What a host access can do: the inversion of the checks and of the access, and that it never stops the machine. -/

namespace Sys2Proof.Machine

/-! ### The access algorithm, one line a case -/

/-- While FAULT = 1 an access is a faulted one (60_exceptions R131). -/
theorem busAccess_of_fault (x : Access) {s : State} (h : s.fault = true) :
    busAccess x s = .next (faultedAccess x s) := by rw [busAccess, if_pos h]

/-- An access that fails a check leaves its record and nothing else (60_exceptions R123). -/
theorem busAccess_of_fail {x : Access} {s : State} {f : FaultCode} (h : s.fault = false) (hc : accessCheck s x = some f) :
    busAccess x s = .next (recorded x f.code s) := by
  simp only [busAccess, h, hc, failAccess, returnRead, raise, recorded]
  cases x.dir <;> simp

/-- A read that passes the checks returns its value and changes nothing (20_memory R58). -/
theorem busAccess_read {x : Access} {s : State} (h : s.fault = false) (hc : accessCheck s x = none) (hd : x.dir = .read) :
    busAccess x s = .next { s with rdata := readValue s x } := by
  simp [busAccess, h, hc, performAccess, hd, returnRead]

/-- A write that passes the checks, outside CTRL (20_memory R56). -/
theorem busAccess_write {x : Access} {s : State} (h : s.fault = false) (hc : accessCheck s x = none) (hd : x.dir = .write)
    (ha : x.addr ≠ offCtrl) : busAccess x s = .next (storeValue x s) := by
  simp [busAccess, h, hc, performAccess, hd, ha]

/-- A write of CTRL that passes the checks (30_encoding R73). -/
theorem busAccess_ctrl {x : Access} {s : State} (h : s.fault = false) (hc : accessCheck s x = none) (hd : x.dir = .write)
    (ha : x.addr = offCtrl) : busAccess x s = ctrlWrite x.data s := by
  simp [busAccess, h, hc, performAccess, hd, ha]

theorem Access.size_pos (x : Access) : 0 < x.size := by unfold Access.size; cases x.width <;> decide

theorem Access.size_le (x : Access) : x.size ≤ 8 := by unfold Access.size; cases x.width <;> decide

/-- The bytes of an access inside REC (20_memory R50). -/
theorem regionOf_eq_recBuf {c : Config} {a n : Nat} (h1 : recBase ≤ a) (h2 : a + n ≤ recBase + c.recBytes) :
    regionOf c a n = some .recBuf := by
  have : ¬ a + n ≤ 0x50 := by simp only [recBase] at h1; omega
  simp [regionOf, this, h1, h2]

/-- The bytes of an access inside KEY (20_memory R50). -/
theorem regionOf_eq_key {c : Config} {a n : Nat} (h1 : keyBase ≤ a) (hn : 0 < n) (h2 : a + n ≤ keyBase + c.keyBytes) :
    regionOf c a n = some .key := by
  have hr := c.recBytes_le
  have h3 : ¬ a + n ≤ 0x50 := by simp only [keyBase] at h1; omega
  have h4 : ¬ a + n ≤ recBase + c.recBytes := by simp only [keyBase, recBase] at h1 ⊢; omega
  simp [regionOf, h3, h4, h1, h2]

/-! ### Inversions -/

/-- What an access that passes every check of 20_memory R56 has been shown to be. -/
theorem accessCheck_none {s : State} {x : Access} (h : accessCheck s x = none) :
    x.addr % x.size = 0 ∧
    ∃ r, regionOf s.cfg x.addr x.size = some r ∧ (r = .regs → x.size = 8) ∧
      (x.dir = .write → readOnlyReg x.addr = false) ∧
      (s.busy = true → allowedWhileBusy x.dir x.addr = true) ∧
      (x.dir = .write → s.locked = true → r ≠ .key ∧ x.addr ≠ offIdxoff) := by
  unfold accessCheck at h
  split at h
  · cases h
  · rename_i h1
    split at h
    · cases h
    · rename_i r hr
      obtain ⟨h2, h⟩ := none_of_ite h
      obtain ⟨h3, h⟩ := none_of_ite h
      obtain ⟨h4, h⟩ := none_of_ite h
      obtain ⟨h5, _⟩ := none_of_ite h
      refine ⟨not_not.1 h1, r, hr, ?_, ?_, ?_, ?_⟩
      · intro e; by_contra hn; exact h2 ⟨e, hn⟩
      · intro e; by_contra hn; exact h3 ⟨e, by simpa using hn⟩
      · intro e; by_contra hn; exact h4 ⟨e, hn⟩
      · intro e l
        constructor
        · intro hk; exact h5 ⟨e, l, .inl hk⟩
        · intro ha; exact h5 ⟨e, l, .inr ha⟩

/-- A CTRL write that passes the checks finds the engine idle (30_encoding R73). -/
theorem not_busy_of_ctrl {s : State} {x : Access} (h : accessCheck s x = none) (hd : x.dir = .write)
    (ha : x.addr = offCtrl) : s.busy = false := by
  obtain ⟨_, r, _, _, _, hb, _⟩ := accessCheck_none h
  cases hs : s.busy
  · rfl
  · have := hb hs
    rw [hd, ha] at this
    exact absurd this (by decide)

/-- Everything a host access can do. -/
theorem busAccess_cases {x : Access} {s t : State} (h : busAccess x s = .next t) :
    (s.fault = true ∧ t = faultedAccess x s) ∨
    (∃ f, s.fault = false ∧ accessCheck s x = some f ∧ t = failAccess f x s) ∨
    (s.fault = false ∧ accessCheck s x = none ∧ x.dir = .read ∧ t = returnRead x (readValue s x) s) ∨
    (s.fault = false ∧ accessCheck s x = none ∧ x.dir = .write ∧ x.addr = offCtrl ∧ s.busy = false ∧
      ((∃ e, decodeWord x.data = .error e ∧ t = raise .illegalCmd x.data s) ∨
       ∃ i, decodeWord x.data = .ok i ∧ t = issue i (commandCheck i) s)) ∨
    (s.fault = false ∧ accessCheck s x = none ∧ x.dir = .write ∧ x.addr ≠ offCtrl ∧ t = storeValue x s) := by
  unfold busAccess at h
  cases hf : s.fault
  · simp only [hf, Bool.false_eq_true, if_false] at h
    cases hc : accessCheck s x with
    | some f => rw [hc] at h; cases h; exact .inr (.inl ⟨f, rfl, rfl, rfl⟩)
    | none =>
      rw [hc] at h
      simp only [performAccess] at h
      cases hd : x.dir with
      | read => rw [hd] at h; cases h; exact .inr (.inr (.inl ⟨rfl, rfl, rfl, rfl⟩))
      | write =>
        rw [hd] at h
        simp only at h
        by_cases ha : x.addr = offCtrl
        · have hb := not_busy_of_ctrl hc hd ha
          simp only [ha, if_true, ctrlWrite] at h
          cases hw : decodeWord x.data with
          | error e => rw [hw] at h; cases h; exact .inr (.inr (.inr (.inl ⟨rfl, rfl, rfl, ha, hb, .inl ⟨e, rfl, rfl⟩⟩)))
          | ok i =>
            rw [hw] at h
            simp only [exec_of_not_busy i hb] at h
            cases h
            exact .inr (.inr (.inr (.inl ⟨rfl, rfl, rfl, ha, hb, .inr ⟨i, rfl, rfl⟩⟩)))
        · simp only [ha, if_false] at h
          cases h
          exact .inr (.inr (.inr (.inr ⟨rfl, rfl, rfl, ha, rfl⟩)))
  · simp only [hf, if_true] at h
    cases h
    exact .inl ⟨rfl, rfl⟩

/-- A host access never stops the machine. -/
theorem busAccess_next (x : Access) (s : State) : ∃ t, busAccess x s = .next t := by
  unfold busAccess
  split
  · exact ⟨_, rfl⟩
  · split
    · exact ⟨_, rfl⟩
    · unfold performAccess
      split
      · exact ⟨_, rfl⟩
      · split
        · unfold ctrlWrite
          split
          · exact exec_next _ _
          · exact ⟨_, rfl⟩
        · exact ⟨_, rfl⟩

/-- Everything a write outside CTRL can change: a flag or a register, REC, or KEY. -/
theorem storeValue_cases (x : Access) (s : State) :
    (regionOf s.cfg x.addr x.size = some .regs ∧ storeValue x s = writeReg x.addr x.data s) ∨
    (regionOf s.cfg x.addr x.size = some .recBuf ∧
      storeValue x s = { s with recBuf := s.recBuf.write (x.addr - recBase) (bytesOf x.size x.data) }) ∨
    (regionOf s.cfg x.addr x.size = some .key ∧
      storeValue x s = { s with keyStore := s.keyStore.write (x.addr - keyBase) (bytesOf x.size x.data) }) ∨
    (regionOf s.cfg x.addr x.size = none ∧ storeValue x s = s) := by
  unfold storeValue
  cases h : regionOf s.cfg x.addr x.size with
  | none => simp
  | some r => cases r <;> simp

/-- Everything a register write can change (10_state R30 to R35). -/
theorem writeReg_cases (a : Nat) (v : Word) (s : State) :
    (a = offStatus ∧ writeReg a v s = { s with done := s.done && !v.getLsbD 1 }) ∨
    (a = offIrqen ∧ writeReg a v s = { s with irqen := v.setWidth 2 }) ∨
    (a = offArg0 ∧ writeReg a v s = { s with arg0 := v }) ∨
    (a = offArg1 ∧ writeReg a v s = { s with arg1 := v }) ∨
    (a = offIdxoff ∧ writeReg a v s = { s with idxoff := truncIdx s.cfg v }) ∨
    writeReg a v s = s := by
  unfold writeReg
  split
  · rename_i h
    refine .inl ⟨h, ?_⟩
    cases v.getLsbD 1 <;> simp
  · split
    · rename_i h; exact .inr (.inl ⟨h, rfl⟩)
    · split
      · rename_i h; exact .inr (.inr (.inl ⟨h, rfl⟩))
      · split
        · rename_i h; exact .inr (.inr (.inr (.inl ⟨h, rfl⟩)))
        · split
          · rename_i h; exact .inr (.inr (.inr (.inr (.inl ⟨h, rfl⟩))))
          · exact .inr (.inr (.inr (.inr (.inr rfl))))

/-- Where the bytes of an access in REC lie (20_memory R50). -/
theorem regionOf_recBuf {c : Config} {a n : Nat} (h : regionOf c a n = some .recBuf) :
    recBase ≤ a ∧ a + n ≤ recBase + c.recBytes := by
  unfold regionOf at h
  split at h
  · cases h
  · split at h
    · assumption
    · split at h <;> cases h

/-- Where the bytes of an access in KEY lie (20_memory R50). -/
theorem regionOf_key {c : Config} {a n : Nat} (h : regionOf c a n = some .key) :
    keyBase ≤ a ∧ a + n ≤ keyBase + c.keyBytes := by
  unfold regionOf at h
  split at h
  · cases h
  · split at h
    · cases h
    · split at h
      · assumption
      · cases h

/-- Where the bytes of an access in REGS lie (20_memory R50). -/
theorem regionOf_regs {c : Config} {a n : Nat} : regionOf c a n = some .regs ↔ a + n ≤ 0x50 := by
  unfold regionOf
  constructor
  · intro h
    split at h
    · assumption
    · split at h
      · cases h
      · split at h <;> cases h
  · intro h; simp [h]

/-! ### Accesses that pass the checks -/

/-- An 8-byte read of a register passes the checks, while BUSY = 1 only of a diagnostic one (20_memory R56). -/
theorem accessCheck_readReg (s : State) {off : Offset} (d : Word) (hr : off.toNat ≤ 0x48) (ha : off.toNat % 8 = 0)
    (hb : s.busy = true → diagnosticReg off.toNat = true) :
    accessCheck s { dir := .read, off := off, width := .w8, data := d } = none := by
  have h1 : off.toNat + 8 ≤ 0x50 := by omega
  simp only [accessCheck, Access.addr, Access.size, Width.bytes, ha, regionOf_regs.2 h1]
  simp [allowedWhileBusy]
  exact hb

/-- An 8-byte write of a writable register passes the checks: while BUSY = 1 only of IRQEN, while LOCKED = 1 not of IDXOFF
(20_memory R56). -/
theorem accessCheck_writeReg (s : State) {off : Offset} (v : Word) (hr : off.toNat ≤ 0x48) (ha : off.toNat % 8 = 0)
    (ho : readOnlyReg off.toNat = false) (hb : s.busy = true → off.toNat = offIrqen)
    (hl : s.locked = true → off.toNat ≠ offIdxoff) :
    accessCheck s { dir := .write, off := off, width := .w8, data := v } = none := by
  have h1 : off.toNat + 8 ≤ 0x50 := by omega
  have h2 : ¬ (s.busy = true ∧ ¬ allowedWhileBusy Dir.write off.toNat = true) := by
    rintro ⟨h, h'⟩; exact h' (by simp [allowedWhileBusy, hb h])
  have h3 : ¬ (s.locked = true ∧ off.toNat = offIdxoff) := fun h => hl h.1 h.2
  simp only [accessCheck, Access.addr, Access.size, Width.bytes, ha, regionOf_regs.2 h1, ho]
  simp [-Bool.not_eq_true, h2, h3]

/-- An aligned access inside REC or KEY passes the checks while the BCE is idle, but for a write of KEY while LOCKED = 1
(20_memory R56). -/
theorem accessCheck_memory {s : State} {x : Access} {r : Region} (hb : s.busy = false) (ha : x.addr % x.size = 0)
    (hr : regionOf s.cfg x.addr x.size = some r) (hr' : r ≠ .regs) (hge : 0x1000 ≤ x.addr)
    (hl : x.dir = .read ∨ s.locked = false ∨ r = .recBuf) : accessCheck s x = none := by
  have ho : readOnlyReg x.addr = false := by simp [readOnlyReg, offId, offParam, offResult, offErrinfo]; omega
  have h40 : x.addr ≠ offIdxoff := by simp only [offIdxoff]; omega
  simp only [accessCheck, ha, hr, ho, hb, h40]
  rcases hl with h | h | h <;> simp [h, hr']

/-- An access leaves the turns alone. -/
theorem busAccess_sched {x : Access} {s t : State} (h : busAccess x s = .next t) : t.sched = s.sched := by
  have hr : ∀ v (u : State), (returnRead x v u).sched = u.sched := by intro v u; unfold returnRead; split <;> rfl
  rcases busAccess_cases h with ⟨_, rfl⟩ | ⟨f, _, _, rfl⟩ | ⟨_, _, _, rfl⟩ | ⟨_, _, _, _, _, hh⟩ | ⟨_, _, _, _, rfl⟩
  · exact hr _ _
  · exact (hr _ _).trans (by simp)
  · exact hr _ _
  · rcases hh with ⟨e, _, rfl⟩ | ⟨i, _, rfl⟩
    · simp
    · rcases issue_cases i (commandCheck i) s with ⟨_, h⟩ | ⟨f, _, _, h⟩ | ⟨_, _, h⟩ <;> rw [h] <;> simp
  · rcases storeValue_cases x s with ⟨_, e⟩ | ⟨_, e⟩ | ⟨_, e⟩ | ⟨_, e⟩ <;> rw [e]
    rcases writeReg_cases x.addr x.data s with ⟨_, e⟩ | ⟨_, e⟩ | ⟨_, e⟩ | ⟨_, e⟩ | ⟨_, e⟩ | e <;> rw [e]

end Sys2Proof.Machine
end

