-- ==== Sys2Proof/Laws/Flags.lean ====
section
/-! SUPPORT. STATUS and PARAM as sums of their fields, and the offsets of the diagnostic registers. -/

namespace Sys2Proof.Machine

/-- Concatenation as a sum (00_scope R12). -/
theorem toNat_append_add {m n : Nat} (x : BitVec m) (y : BitVec n) : (x ++ y).toNat = x.toNat * 2 ^ n + y.toNat := by
  rw [BitVec.toNat_append, ← Nat.shiftLeft_add_eq_or_of_lt y.isLt, Nat.shiftLeft_eq]

/-- STATUS as the sum of its fields (10_state R26 to R30). -/
theorem statusWord_toNat (s : State) :
    (statusWord s).toNat =
      s.busy.toNat + 2 * s.done.toNat + 4 * s.locked.toNat + 8 * s.fault.toNat + 256 * s.errcode.toNat := by
  unfold statusWord
  simp only [toNat_append_add, BitVec.toNat_ofBool, BitVec.toNat_ofNat]
  omega

/-- PARAM as the sum of its fields (10_state R24): none is cut off in a legal configuration. -/
theorem paramWord_toNat (c : Config) :
    (paramWord c).toNat = c.wBytes + 256 * c.idxBytes + 65536 * c.blockWords + 4294967296 * c.keyBytes := by
  have h1 := c.blockWords_bounds
  have h2 := c.keyBytes_bounds
  have h3 := c.wBytes_le
  have h4 := c.idxBytes_le
  unfold paramWord
  simp only [toNat_append_add, BitVec.toNat_ofNat]
  omega

/-- A diagnostic register is one of five (20_memory R56). -/
theorem diagnosticReg_iff (a : Nat) :
    diagnosticReg a = true ↔ a = 0x000 ∨ a = 0x008 ∨ a = 0x018 ∨ a = 0x020 ∨ a = 0x048 := by
  simp [diagnosticReg, or_assoc]

/-- A read-only register is one of four (20_memory R53). -/
theorem readOnlyReg_iff (a : Nat) :
    readOnlyReg a = true ↔ a = 0x000 ∨ a = 0x008 ∨ a = 0x038 ∨ a = 0x048 := by
  simp [readOnlyReg, or_assoc]

/-! ### The flags in STATUS -/

theorem statusWord_busy (s : State) : (statusWord s).getLsbD 0 = s.busy := by
  simp only [statusWord, BitVec.getLsbD_append]; simp

theorem statusWord_done (s : State) : (statusWord s).getLsbD 1 = s.done := by
  simp only [statusWord, BitVec.getLsbD_append]; simp

theorem statusWord_locked (s : State) : (statusWord s).getLsbD 2 = s.locked := by
  simp only [statusWord, BitVec.getLsbD_append]; simp

theorem statusWord_fault (s : State) : (statusWord s).getLsbD 3 = s.fault := by
  simp only [statusWord, BitVec.getLsbD_append]; simp

end Sys2Proof.Machine
end

