-- ==== Sys2Proof/Laws/PerInstr.lean ====
section
/-! SUPPORT. Statements for all instructions, one lemma per constructor. -/

/-- The command's CTRL value decodes to it (30_encoding R75, R76). -/
def Sys2Proof.Laws.RoundTrip.Statement (i : Instr) : Prop := decodeWord (encodeWord i) = .ok i

theorem Sys2Proof.Laws.RoundTrip.nop : Statement .nop := by rfl

theorem Sys2Proof.Laws.RoundTrip.lock : Statement .lock := by rfl

theorem Sys2Proof.Laws.RoundTrip.hash : Statement .hash := by rfl

theorem Sys2Proof.Laws.RoundTrip.subkey (wb : Width) : Statement (.subkey wb) := by cases wb <;> rfl

theorem Sys2Proof.Laws.RoundTrip.xorwin : Statement .xorwin := by rfl

theorem Sys2Proof.Laws.RoundTrip.cipher : Statement .cipher := by rfl

theorem Sys2Proof.Laws.RoundTrip.cipherRec : Statement .cipherRec := by rfl
end

