-- ==== Sys2Proof/Laws/Step.lean ====
section
/-! SUPPORT. What a step can do: the inversion of the host's turn, the engine's turn and the step. -/

namespace Sys2Proof.Machine

/-! ### The turn a step takes -/

/-- A listed turn is the one taken. -/
theorem nextTurn_cons {s : State} {t : Turn} {rest : List Turn} (h : s.sched = t :: rest) : nextTurn s = (t, rest) := by
  simp [nextTurn, h]

/-- A step with its turn listed. -/
theorem step_of_sched {s : State} {t : Turn} {rest : List Turn} (h : s.sched = t :: rest) :
    step s = takeTurn t { s with sched := rest } := by
  simp [step, stepTurn, nextTurn_cons h]

/-- A step whose turn is a bus access. -/
theorem step_of_bus {s : State} {x : Access} {rest : List Turn} (h : s.sched = .bus x :: rest) :
    step s = busAccess x { s with sched := rest } := step_of_sched h

/-- A step whose turn is the host's. -/
theorem step_of_host {s : State} {rest : List Turn} (h : s.sched = .host :: rest) :
    step s = hostTurn { s with sched := rest } := step_of_sched h

/-! ### States with the same BCE -/

theorem sameBce_refl (s : State) : sameBce s s := rfl

/-- The fields of two states whose BCE is the same. -/
theorem sameBce_iff (s t : State) :
    sameBce s t ↔ s.cfg = t.cfg ∧ s.arg0 = t.arg0 ∧ s.arg1 = t.arg1 ∧ s.result = t.result ∧ s.idxoff = t.idxoff ∧
      s.irqen = t.irqen ∧ s.busy = t.busy ∧ s.done = t.done ∧ s.locked = t.locked ∧ s.fault = t.fault ∧
      s.errcode = t.errcode ∧ s.errinfo = t.errinfo ∧ s.recBuf = t.recBuf ∧ s.keyStore = t.keyStore ∧
      s.cmdL = t.cmdL ∧ s.wselL = t.wselL ∧ s.a0L = t.a0L ∧ s.a1L = t.a1L := by
  cases s; cases t; simp [sameBce]

theorem sameBce_symm {s t : State} (h : sameBce s t) : sameBce t s := by
  rw [sameBce_iff] at h ⊢
  obtain ⟨h1, h2, h3, h4, h5, h6, h7, h8, h9, h10, h11, h12, h13, h14, h15, h16, h17, h18⟩ := h
  exact ⟨h1.symm, h2.symm, h3.symm, h4.symm, h5.symm, h6.symm, h7.symm, h8.symm, h9.symm, h10.symm, h11.symm, h12.symm,
    h13.symm, h14.symm, h15.symm, h16.symm, h17.symm, h18.symm⟩

theorem sameBce_trans {s t u : State} (h : sameBce s t) (h' : sameBce t u) : sameBce s u := by
  rw [sameBce_iff] at *
  obtain ⟨h1, h2, h3, h4, h5, h6, h7, h8, h9, h10, h11, h12, h13, h14, h15, h16, h17, h18⟩ := h
  simp only [h1, h2, h3, h4, h5, h6, h7, h8, h9, h10, h11, h12, h13, h14, h15, h16, h17, h18]
  exact h'

theorem sameBce_setHostReg (r : HReg) (v : Word) (s : State) : sameBce s (setHostReg r v s) := rfl

theorem sameBce_setPlace (p : Nat) (s : State) : sameBce s (setPlace p s) := rfl

theorem sameBce_sched (q : List Turn) (s : State) : sameBce s { s with sched := q } := rfl

theorem sameBce_advance (s : State) : sameBce s (advance s) := rfl

theorem sameBce_stopHost (r : HostStatus) (s : State) : sameBce s (stopHost r s) := rfl

theorem sameBce_returnRead (x : Access) (v : Word) (s : State) : sameBce s (returnRead x v s) := by
  unfold returnRead; split <;> rfl

theorem sameBce_branch (b : Bool) (t : Target) (s : State) : sameBce s (branch b t s) := by
  unfold branch
  split
  · split <;> rfl
  · rfl

/-! ### Turns -/

/-- Everything a statement of the host can do: nothing to the BCE, or the one bus access that it is. -/
theorem execStmt_cases {st : Stmt} {s t : State} (h : execStmt st s = .next t) :
    (transactionOf s st = none ∧ sameBce s t) ∨
    ∃ x u, transactionOf s st = some x ∧ busAccess x (advance s) = .next u ∧ sameBce u t := by
  cases st with
  | st n off src => exact .inr ⟨_, t, rfl, h, rfl⟩
  | ld n hD off =>
    obtain ⟨u, hu⟩ := busAccess_next { dir := .read, off := offValue s off, width := n, data := 0 } (advance s)
    simp only [execStmt, hu] at h
    cases h
    exact .inr ⟨_, u, rfl, hu, rfl⟩
  | li hD imm => cases h; exact .inl ⟨rfl, rfl⟩
  | addi hD hS imm => cases h; exact .inl ⟨rfl, rfl⟩
  | andi hD hS imm => cases h; exact .inl ⟨rfl, rfl⟩
  | shli hD hS k => cases h; exact .inl ⟨rfl, rfl⟩
  | bne hS v tg => cases h; exact .inl ⟨rfl, sameBce_branch _ _ _⟩
  | beq hS v tg => cases h; exact .inl ⟨rfl, sameBce_branch _ _ _⟩
  | bltu hS v tg => cases h; exact .inl ⟨rfl, sameBce_branch _ _ _⟩
  | assert hS v =>
    simp only [execStmt] at h
    split at h <;> cases h <;> exact .inl ⟨rfl, rfl⟩
  | label l => cases h; exact .inl ⟨rfl, rfl⟩

/-- A statement never stops the machine. -/
theorem execStmt_next (st : Stmt) (s : State) : ∃ t, execStmt st s = .next t := by
  cases st with
  | st n off src => exact busAccess_next _ _
  | ld n hD off =>
    obtain ⟨u, hu⟩ := busAccess_next { dir := .read, off := offValue s off, width := n, data := 0 } (advance s)
    exact ⟨setHostReg hD u.rdata u, by simp only [execStmt, hu]⟩
  | assert hS v => simp only [execStmt]; split <;> exact ⟨_, rfl⟩
  | _ => exact ⟨_, rfl⟩

/-- The host's turn never stops the machine. -/
theorem hostTurn_next (s : State) : ∃ t, hostTurn s = .next t := by
  unfold hostTurn
  split
  · exact execStmt_next _ _
  · exact ⟨_, rfl⟩

/-- Everything the engine's turn can do. -/
theorem engineTurn_cases {s t : State} (h : engineTurn s = .next t) :
    (s.busy = false ∧ t = s) ∨
    ∃ i, s.busy = true ∧ latched s = some i ∧ t = complete (commandEffect i) s := by
  unfold engineTurn at h
  cases hb : s.busy
  · simp only [hb, Bool.false_eq_true, if_false] at h
    cases h
    exact .inl ⟨rfl, rfl⟩
  · simp only [hb, if_true] at h
    cases hl : latched s with
    | none => rw [hl] at h; cases h
    | some i =>
      rw [hl] at h
      simp only [exec_of_busy i hb] at h
      cases h
      exact .inr ⟨i, rfl, rfl, rfl⟩

/-- Everything a step can do to the BCE: reset it, nothing, one host access, or one completion. -/
theorem step_cases {s t : State} (h : step s = .next t) :
    ((nextTurn s).1 = .reset ∧ t = applyReset { s with sched := (nextTurn s).2 }) ∨
    ((nextTurn s).1 ≠ .reset ∧ sameBce s t) ∨
    (∃ x u v, (nextTurn s).1 ≠ .reset ∧ (nextTurn s).1 ≠ .engine ∧ sameBce s u ∧ busAccess x u = .next v ∧ sameBce v t) ∨
    (∃ i, (nextTurn s).1 = .engine ∧ s.busy = true ∧ latched s = some i ∧
      t = complete (commandEffect i) { s with sched := (nextTurn s).2 }) := by
  unfold step stepTurn at h
  cases ht : (nextTurn s).1 with
  | reset => rw [ht] at h; cases h; exact .inl ⟨rfl, rfl⟩
  | engine =>
    rw [ht] at h
    rcases engineTurn_cases h with ⟨_, rfl⟩ | ⟨i, hb, hl, rfl⟩
    · exact .inr (.inl ⟨by simp, sameBce_sched _ _⟩)
    · exact .inr (.inr (.inr ⟨i, rfl, hb, hl, rfl⟩))
  | bus x =>
    rw [ht] at h
    exact .inr (.inr (.inl ⟨x, _, t, by simp, by simp, sameBce_sched _ _, h, sameBce_refl t⟩))
  | host =>
    rw [ht] at h
    simp only [takeTurn, hostTurn] at h
    split at h
    · rcases execStmt_cases h with ⟨_, hs⟩ | ⟨x, u, _, hu, hs⟩
      · exact .inr (.inl ⟨by simp, hs⟩)
      · exact .inr (.inr (.inl ⟨x, _, u, by simp, by simp, sameBce_trans (sameBce_sched (nextTurn s).2 s) (sameBce_advance _), hu, hs⟩))
    · cases h; exact .inr (.inl ⟨by simp, sameBce_sched _ _⟩)

/-! ### The latched command and the host's labels -/

/-- The latches of a command name it. -/
theorem latched_of_latches {s : State} {i : Instr} (h1 : s.cmdL = i.opc) (h2 : s.wselL = i.wsel) :
    latched s = some i := by
  unfold latched
  rw [h1, h2]
  cases i <;> try decide
  rename_i w
  cases w <;> decide

/-- The engine's turn while a command is in flight completes it. -/
theorem engineTurn_of_latched {s : State} {i : Instr} (hb : s.busy = true) (hl : latched s = some i) :
    engineTurn s = .next (complete (commandEffect i) s) := by
  simp only [engineTurn, hb, if_true, hl]
  exact exec_of_busy i hb

/-- A statement of the host leaves the turns alone. -/
theorem execStmt_sched {st : Stmt} {s t : State} (h : execStmt st s = .next t) : t.sched = s.sched := by
  have hbr : ∀ b tg, (branch b tg s).sched = s.sched := by
    intro b tg; unfold branch; split
    · split <;> rfl
    · rfl
  cases st with
  | st n off src => exact busAccess_sched (s := advance s) h
  | ld n hD off =>
    simp only [execStmt] at h
    split at h <;> cases h
    rename_i u hu
    exact (busAccess_sched (s := advance s) hu :)
  | bne => cases h; exact hbr _ _
  | beq => cases h; exact hbr _ _
  | bltu => cases h; exact hbr _ _
  | assert => simp only [execStmt] at h; split at h <;> cases h <;> rfl
  | _ => cases h; rfl

/-- A step whose turn is the host's, with the statement it takes. -/
theorem step_of_stmt {s : State} {rest : List Turn} {st : Stmt} (hs : s.sched = .host :: rest)
    (hc : currentStmt s = some st) : step s = execStmt st { s with sched := rest } := by
  have hc' : currentStmt { s with sched := rest } = some st := hc
  rw [step_of_host hs, hostTurn, hc']

/-- A label found from place `q` on stands there. -/
theorem labelFrom_some {l q p : Nat} {prog : List Stmt} (h : labelFrom l prog q = some p) :
    q ≤ p ∧ prog[p - q]? = some (.label l) := by
  induction prog generalizing q with
  | nil => simp [labelFrom] at h
  | cons st rest ih =>
    simp only [labelFrom] at h
    split at h
    · cases h; simp_all
    · obtain ⟨h1, h2⟩ := ih h
      refine ⟨by omega, ?_⟩
      rw [show p - q = (p - (q + 1)) + 1 by omega]
      simpa using h2

/-- A label found before place `q` stands there, and nearer to `q` there is none (30_encoding R80). -/
theorem labelBefore_some {l q p : Nat} {prog : List Stmt} (h : labelBefore prog l q = some p) :
    prog[p]? = some (.label l) ∧ p < q ∧ ∀ r, p < r → r < q → prog[r]? ≠ some (.label l) := by
  induction q with
  | zero => simp [labelBefore] at h
  | succ q ih =>
    simp only [labelBefore] at h
    split at h
    · cases h; exact ⟨by assumption, by omega, fun r h1 h2 => by omega⟩
    · rename_i hne
      obtain ⟨h1, h2, h3⟩ := ih h
      refine ⟨h1, by omega, fun r hr hq => ?_⟩
      by_cases he : r = q
      · subst he; exact hne
      · exact h3 r hr (by omega)

/-- A turn that is not the engine's never stops the machine. -/
theorem takeTurn_next {u : Turn} (h : u ≠ .engine) (s : State) : ∃ t, takeTurn u s = .next t := by
  cases u with
  | engine => exact absurd rfl h
  | host => exact hostTurn_next _
  | bus x => exact busAccess_next _ _
  | reset => exact ⟨_, rfl⟩

end Sys2Proof.Machine
end

