-- ==== Sys2Proof/Tests/Slice0.lean ====
section
/-! SUPPORT. The writer's own tests: refused configurations, decoded words, vectors of spec/95_test_vectors.md, and a witness for
the hypotheses of each statement of Certificates/Slice0/Obligations.lean. -/

namespace Sys2Proof.Tests

-- one declaration after the other: each waits for its kernel check, so that few threads are alive at a time
set_option Elab.async false

open Sys2Proof.Machine

/-! ### Test tables and configurations (95_test_vectors section 0) -/

/-- `S_T(b) = b ^ 0xA5` -/
def tableT : Vector Byte 256 := Vector.ofFn fun i => BitVec.ofFin i ^^^ 0xA5

/-- `S_M(b) = (37*b + 11) mod 256` -/
def tableM : Vector Byte 256 := Vector.ofFn fun i => BitVec.ofNat 8 (37 * i.val + 11)

theorem tableT_nodup : tableT.toList.Nodup := by
  rw [tableT, Vector.toList_ofFn]
  exact List.nodup_ofFn_ofInjective fun a b h => by simpa using congrArg BitVec.toFin ((BitVec.xor_left_inj _).1 h)

theorem tableM_nodup : tableM.toList.Nodup := by
  rw [tableM, Vector.toList_ofFn]
  refine List.nodup_ofFn_ofInjective fun a b h => ?_
  have := congrArg BitVec.toNat h
  simp only [BitVec.toNat_ofNat] at this
  apply Fin.ext
  omega

/-- CFG_SMALL with N = 32 and S_T. -/
def cfgT : Config := { toParams := Params.small 32 tableT, ok := Params.small_ok (by decide) (by decide) tableT_nodup }

/-- CFG_SMALL with N = 1024 and S_M. -/
def cfgM : Config := { toParams := Params.small 1024 tableM, ok := Params.small_ok (by decide) (by decide) tableM_nodup }

/-- CFG_SMALL with N = 32 and S_M. -/
def cfgM32 : Config := { toParams := Params.small 32 tableM, ok := Params.small_ok (by decide) (by decide) tableM_nodup }

/-- CFG_SMALL with N = 30 and S_T. -/
def cfg30 : Config := { toParams := Params.small 30 tableT, ok := Params.small_ok (by decide) (by decide) tableT_nodup }

/-- CFG_LARGE with N = 256 and S_M. -/
def cfgL : Config :=
  { toParams := Params.large 256 tableM
    ok := by simp [Params.error?, Params.large, Params.keyElements, Params.recBytes, tableM_nodup] }

/-- A legal configuration with KE(8) = 0: one-byte words, one word a block, N = 4. -/
def cfgTiny : Config :=
  { toParams := { Params.small 4 tableT with wBytes := 1, align := 1, blockWords := 1, blockBytes := 1 }
    ok := by simp [Params.error?, Params.small, Params.keyElements, Params.recBytes, tableT_nodup] }

/-- The first `n` bytes of the key pattern K_id, the zero bytes unlisted. -/
def keyId (n : Nat) : Memory :=
  ((List.range n).map fun j => (j, BitVec.ofNat 8 j)).filter fun c => c.2 != 0

/-- The BCE after reset, its key loaded and locked, IDXOFF `off`, REC `rec`, ARG0 `x`. -/
def ready (c : Config) (off x : Word) (rec : Memory) : State :=
  { State.resetOf c with locked := true, keyStore := keyId c.keyBytes, idxoff := off, arg0 := x, recBuf := rec }

/-- A field of the next state. -/
def field {α : Type} (f : State → α) : Host.Outcome State Fault Refusal → Option α
  | .next s => some (f s)
  | .fault _ => none
  | .refused _ => none

/-- STATUS and ERRINFO. -/
def record (s : State) : Nat × Nat := ((statusWord s).toNat, s.errinfo.toNat)

/-- A write, and a read. -/
def wr (off : Offset) (n : Width) (v : Word) : Access := { dir := .write, off := off, width := n, data := v }
def rd (off : Offset) (n : Width) : Access := { dir := .read, off := off, width := n, data := 0 }

/-- The same state with these turns. -/
def turns (q : List Turn) (s : State) : State := { s with sched := q }

/-! ### Refused configurations: one for each constraint of 00_scope R9 -/

def small : Params := Params.small 32 tableT

theorem test_small_is_well_formed : small.wellFormed = true := by
  simp [Params.wellFormed, small, Params.small_ok (show 28 ≤ 32 by decide) (by decide) tableT_nodup]
theorem test_refuse_wordSize : { small with wBytes := 3 }.error? = some .wordSize := by decide +kernel
theorem test_refuse_alignment : { small with align := 8 }.error? = some .alignment := by decide +kernel
theorem test_refuse_blockLength : { small with blockWords := 0 }.error? = some .blockLength := by decide +kernel
theorem test_refuse_blockSize : { small with blockBytes := 32 }.error? = some .blockSize := by decide +kernel
theorem test_refuse_indexSize : { small with idxBytes := 6 }.error? = some .indexSize := by decide +kernel
theorem test_refuse_indexAlignment :
    { small with wBytes := 8, align := 8, blockWords := 3, blockBytes := 24 }.error? = some .indexAlignment := by
  decide +kernel
theorem test_refuse_keySize : { small with keyBytes := 0x100001 }.error? = some .keySize := by decide +kernel
theorem test_refuse_windowLength : { small with keyBytes := 27 }.error? = some .windowLength := by decide +kernel
theorem test_refuse_recordSize :
    { small with keyBytes := 0x1000, blockWords := 1024, blockBytes := 0x1000 }.error? = some .recordSize := by
  decide +kernel
theorem test_refuse_sbox : { small with sbox := Vector.replicate 256 7 }.error? = some .sboxNotPermutation := by
  decide +kernel
theorem test_refuse_usizeWidth : { small with usizeBits := 32 }.error? = some .usizeWidth := by
  simp [Params.error?, small, Params.small, Params.keyElements, Params.recBytes, tableT_nodup]
theorem test_refuse_reduceCycles : { small with tMod := 0 }.error? = some .reduceCycles := by
  simp [Params.error?, small, Params.small, Params.keyElements, Params.recBytes, tableT_nodup]
theorem test_refused_is_not_well_formed : { small with tMod := 0 }.wellFormed = false := by
  simp [Params.wellFormed, test_refuse_reduceCycles]

/-! ### Decoding: words written out from the fields of 30_encoding R67 and the opcode map of R69 (RSV | WSEL | OPC) -/

theorem test_decode_nop : decodeWord (0#58 ++ 0b00#2 ++ 0b0000#4 : BitVec (58 + 2 + 4)) = .ok .nop := by decide
theorem test_decode_lock : decodeWord (0#58 ++ 0b00#2 ++ 0b0001#4 : BitVec (58 + 2 + 4)) = .ok .lock := by decide
theorem test_decode_hash : decodeWord (0#58 ++ 0b00#2 ++ 0b0010#4 : BitVec (58 + 2 + 4)) = .ok .hash := by decide
theorem test_decode_subkey4 : decodeWord (0#58 ++ 0b10#2 ++ 0b0011#4 : BitVec (58 + 2 + 4)) = .ok (.subkey .w4) := by decide
theorem test_decode_xorwin : decodeWord (0#58 ++ 0b00#2 ++ 0b0100#4 : BitVec (58 + 2 + 4)) = .ok .xorwin := by decide
theorem test_decode_cipher : decodeWord (0#58 ++ 0b00#2 ++ 0b0101#4 : BitVec (58 + 2 + 4)) = .ok .cipher := by decide
theorem test_decode_cipherRec : decodeWord (0#58 ++ 0b00#2 ++ 0b0110#4 : BitVec (58 + 2 + 4)) = .ok .cipherRec := by decide

/-- The reserved values of 95_test_vectors L2, Decoder. -/
theorem test_decode_reserved :
    [0x07, 0x08, 0x0F, 0x10, 0x12, 0x14, 0x15, 0x21, 0x36, 0x40, 0x43, 0x8000000000000005].all
      (fun v => match decodeWord v with | .ok _ => false | .error _ => true) = true := by decide

theorem test_decode_bytes : decode [0x13, 0, 0, 0, 0, 0, 0, 0, 0xAA] = .ok (.subkey .w2, [0xAA]) := by decide
theorem test_decode_too_few_bytes : decode [0x13, 0, 0, 0, 0, 0, 0] = .error .truncated := by decide
theorem test_table_word : decodeTableWord 64 0x33 = some (.subkey .w8) := by decide

/-! ### Vectors of 95_test_vectors L2, by id -/

/-- V-CT-1: before completion. -/
theorem test_nop_accepted : field record (exec .nop (State.resetOf cfgT)) = some (0x1, 0) := by decide +kernel
/-- V-CT-1: after completion. -/
theorem test_nop_completes : field record (issueAndComplete .nop (State.resetOf cfgT)) = some (0x2, 0) := by decide +kernel

/-- V-CT-4 -/
theorem test_lock_completes : field record (issueAndComplete .lock (State.resetOf cfgT)) = some (0x6, 0) := by decide +kernel
/-- V-CT-6 -/
theorem test_lock_twice : field record (issueAndComplete .lock (ready cfgT 7 0 [])) = some (0x6, 0) := by decide +kernel

/-- V-IH-8 -/
theorem test_hash_small :
    field (·.result) (issueAndComplete .hash { State.resetOf cfgM with arg0 := 0x12345678 }) = some 0xA58F7963 := by
  decide +kernel
/-- V-IH-9 -/
theorem test_hash_large :
    field (·.result) (issueAndComplete .hash { State.resetOf cfgL with arg0 := 0x0123456789ABCDEF }) =
      some 0x301A04EED8C2AC96 := by decide +kernel

/-- V-SK-5 -/
theorem test_subkey_empty_window :
    field (·.result) (issueAndComplete (.subkey .w4) { State.resetOf cfgT with arg0 := 0xFFFFFFFFFFFFFFFF }) = some 6 := by
  decide +kernel
/-- V-SK-14 -/
theorem test_subkey_long_window :
    field record (exec (.subkey .w4) { State.resetOf cfgT with arg1 := 0xFFFFFFFFFFFFFFFF }) = some (0x308, 0x23) := by
  decide +kernel

/-- V-XW-3: the payload's first and last byte, and the last byte of the index field. -/
theorem test_xorwin_payload :
    field (fun s => (s.recBuf.get 4, s.recBuf.get 31, s.recBuf.get 3))
      (issueAndComplete .xorwin (ready cfgT 0 0 ((List.range 28).map fun j => (4 + j, 0xFF)))) =
      some (0xFF, 0xE4, 0) := by decide +kernel
/-- V-XW-7 -/
theorem test_xorwin_unlocked :
    field record (exec .xorwin { State.resetOf cfgT with arg0 := 5 }) = some (0x208, 0x4) := by decide +kernel

/-- V-CI-3: IDXOFF is applied before the hash. -/
theorem test_cipher_order :
    field (fun s => (s.recBuf.get 4, s.recBuf.get 31)) (issueAndComplete .cipher (ready cfgM 0xFF 1 [])) =
      some (0x7C, 0x97) := by decide +kernel
/-- V-CI-4: the index bits above bit 31 are ignored. -/
theorem test_cipher_truncates :
    field (fun s => (s.recBuf.get 4, s.recBuf.get 31)) (issueAndComplete .cipher (ready cfgM 0xFF 0xABCD000000000001 [])) =
      some (0x7C, 0x97) := by decide +kernel

/-- The index field of V-CR-4. -/
def index44 : Memory := [(0, 0x88), (1, 0x77), (2, 0x66), (3, 0x55), (4, 0x44), (5, 0x33), (6, 0x22), (7, 0x11)]

/-- V-CR-4: the window that the little-endian index field selects. -/
theorem test_cipherRec_start :
    let s := ready cfgL 0x0102030405060708 0 index44
    recordIndex s = 0x1122334455667788 ∧ hashIndex cfgL (recordIndex s ^^^ s.idxoff) = 0x5BABFB4B9BEB3B8B ∧
      cipherStart s (recordIndex s) = 1 := by decide +kernel

/-- V-CI-2's index from the record (42_cipher R104): the payload's first and last byte, and the index field in clear. -/
theorem test_cipherRec_small :
    field (fun s => (s.recBuf.get 4, s.recBuf.get 31, s.recBuf.get 0, s.recBuf.get 3))
      (issueAndComplete .cipherRec (ready cfgM32 0x11223344 0 [(0, 0x44), (1, 0x33), (2, 0x22), (3, 0x11)])) =
      some (0x04, 0x1F, 0x44, 0x11) := by decide +kernel

/-- V-CT-7, V-CT-8 -/
theorem test_param :
    paramWord cfgT = 0x0000002000070404 ∧ paramWord cfgL = 0x00000100001F0808 ∧ paramWord cfgM = 0x0000040000070404 := by
  decide +kernel

/-- V-CT-5 -/
theorem test_locked_write :
    field record (busAccess (wr 0x040 .w8 8) { ready cfgT 7 0 [] with done := true }) = some (0x40E, 0x40) := by
  decide +kernel
/-- V-CT-10 -/
theorem test_idxoff_truncates :
    field (·.idxoff) (busAccess (wr 0x040 .w8 0x123456789) (State.resetOf cfgT)) = some 0x23456789 := by decide +kernel
/-- V-CT-11 -/
theorem test_irqen_keeps_two_bits :
    field (·.irqen) (busAccess (wr 0x020 .w8 0xFF) (State.resetOf cfgT)) = some 3 := by decide +kernel
/-- V-CT-13 -/
theorem test_irq_on_fault :
    field State.irq (busAccess (wr 0x010 .w8 7) { State.resetOf cfgT with irqen := 2 }) = some true := by decide +kernel
/-- V-FL-4 -/
theorem test_illegal_before_not_locked :
    field record (busAccess (wr 0x010 .w8 0x15) (State.resetOf cfgT)) = some (0x108, 0x15) := by decide +kernel
/-- V-FL-6 -/
theorem test_busy_access :
    field record (busAccess (rd 0x1004 .w4) { State.resetOf cfgT with busy := true }) = some (0x509, 0x1004) := by
  decide +kernel
/-- V-FL-10 -/
theorem test_register_width :
    field record (busAccess (rd 0x018 .w4) (State.resetOf cfgT)) = some (0x608, 0x18) := by decide +kernel
/-- V-FL-15 -/
theorem test_past_key :
    field record (busAccess (wr 0x100018 .w8 0) (State.resetOf cfg30)) = some (0x608, 0x100018) := by decide +kernel
/-- V-FL-17 -/
theorem test_misaligned_first :
    field record (busAccess (wr 0x012 .w4 0) (State.resetOf cfgT)) = some (0x708, 0x12) := by decide +kernel
/-- V-FL-18 -/
theorem test_busy_before_locked :
    field record (busAccess (wr 0x100000 .w1 1) { ready cfgT 0 0 [] with busy := true }) = some (0x50D, 0x100000) := by
  decide +kernel
/-- V-FL-20: a faulted read of ARG0 returns 0. -/
theorem test_faulted_read :
    field (·.rdata) (busAccess (rd 0x028 .w8) { State.resetOf cfgT with arg0 := 5, fault := true, errcode := 1, rdata := 9 }) =
      some 0 := by decide +kernel
/-- The latency table. -/
theorem test_latency :
    latency cfgT .hash = 2 ∧ latency cfgT .xorwin = 9 ∧ latency cfgL .xorwin = 33 ∧ latency cfgT .cipher = 10 ∧
      latency cfgL .cipherRec = 34 := by decide +kernel

/-- P1: the label's place after the loop's branch, and a load through `[h1]`. -/
def program : List Stmt := [.label 3, .addi 0 0 1, .bltu 0 (.imm 2) (.label 3), .ld .w8 1 (.reg 1)]

/-- The host at place `p` of the program, h1 holding the offset of PARAM. -/
def hosted (p : Nat) : State :=
  { ready cfgT 0 0 [] with
    host := { prog := program, place := p, status := .running, regs := #v[1, 8, 0, 0, 0, 0, 0, 0] }, sched := [.host] }

/-- 30_encoding R78: `bltu` goes to its label while h0 < 2, unsigned. -/
theorem test_branch : field (·.host.place) (step (hosted 2)) = some 0 := by decide +kernel
/-- 30_encoding R77: `ld8 h1, [h1]` reads PARAM. -/
theorem test_load : field (fun s => s.host.regs[1]) (step (hosted 3)) = some 0x0000002000070404 := by decide +kernel

/-- Each word of the opcode table runs from reset, whatever the free configuration is. -/
theorem test_placed_words_run :
    [0x00, 0x01, 0x02, 0x03, 0x13, 0x23, 0x33, 0x04, 0x05, 0x06].all
      (fun w => (field (fun _ => ()) (step (State.reset.withFetchWord 64 w))).isSome) = true := by decide +kernel

/-! ### Witnesses: states that meet the hypotheses of the statements, clause by clause, at the edges of their ranges -/

/-- An idle, locked BCE (KE(4) = 8, REC_BYTES = 32) with ARG0 = 3, IDXOFF = 7, two payload bytes and these turns. -/
def idleS (q : List Turn) : State := turns q (ready cfgT 7 3 [(4, 0x41), (31, 0x5C)])

/-- The same with ARG1 = `n`, before LOCK. -/
def openS (n : Word) (q : List Turn) : State := { idleS q with locked := false, arg1 := n }

/-- The idle BCE with the command just accepted. -/
def busyS (i : Instr) (q : List Turn) : State := accept i (idleS q)

/-- The idle BCE after ILLEGAL_CMD. -/
def faultedS (q : List Turn) : State := raise .illegalCmd 7 (idleS q)

theorem idleS_inv (q : List Turn) : (idleS q).Inv where
  recForm := show Memory.wf cfgT.recBytes [(4, 0x41), (31, 0x5C)] = true by decide +kernel
  keyForm := show Memory.wf cfgT.keyBytes (keyId cfgT.keyBytes) = true by decide +kernel
  idxoffWidth := show truncIdx cfgT 7 = 7 by decide +kernel
  legalCode := Nat.zero_le _
  faultRecord := ⟨fun h => Bool.noConfusion h, fun h => absurd rfl h⟩
  faultInfo := fun _ => rfl
  busyNotDone := fun h => Bool.noConfusion h
  busyOperands := fun h => Bool.noConfusion h
  busyCommand := fun h => Bool.noConfusion h

theorem openS_inv (n : Word) (q : List Turn) : (openS n q).Inv := { idleS_inv q with
  busyOperands := fun h => Bool.noConfusion h
  busyCommand := fun h => Bool.noConfusion h }

theorem busyS_inv (i : Instr) (q : List Turn) : (busyS i q).Inv := { idleS_inv q with
  busyNotDone := fun _ => rfl
  busyOperands := fun _ => ⟨rfl, rfl⟩
  busyCommand := fun _ => ⟨i, rfl, rfl, by cases i <;> first | exact trivial | exact rfl | exact Nat.zero_le _⟩ }

theorem idleS_idle (q : List Turn) : (idleS q).idle := ⟨rfl, rfl⟩

theorem busyS_latched (i : Instr) (q : List Turn) : latched (busyS i q) = some i := latched_of_latches rfl rfl

theorem step_next_of_bus {s : State} {x : Access} {rest : List Turn} (h : s.sched = .bus x :: rest) :
    ∃ t, step s = .next t := step_of_bus h ▸ busAccess_next _ _

theorem witness_CtrlValueDecodesToExactlyItsCommand :
    decodeWord 0x33 = .ok (.subkey .w8) ∧ (Instr.subkey .w8).wellFormed = true := by decide

theorem witness_CtrlWriteStepRunsDecodedCommand :
    (idleS [.bus (wr 0x010 .w8 0x33), .host]).idle ∧
      (idleS [.bus (wr 0x010 .w8 0x33), .host]).sched =
        .bus { dir := .write, off := 0x010, width := .w8, data := 0x33 } :: [.host] ∧
      decodeWord 0x33 = .ok (.subkey .w8) := ⟨⟨rfl, rfl⟩, rfl, by decide⟩

theorem witness_EngineStepRunsLatchedCommand (i : Instr) :
    ((busyS i [.engine, .host]).busy = true ∧ i.opc = (busyS i [.engine, .host]).cmdL ∧
      i.wsel = (busyS i [.engine, .host]).wselL ∧ (busyS i [.engine, .host]).sched = .engine :: [.host]) ∧
    ((busyS i []).busy = true ∧ i.opc = (busyS i []).cmdL ∧ i.wsel = (busyS i []).wselL ∧ (busyS i []).sched = []) :=
  ⟨⟨rfl, rfl, rfl, rfl⟩, rfl, rfl, rfl, rfl⟩

theorem witness_PlacedWordRunsAsNextStep :
    decodeTableWord 64 0x06 = some .cipherRec ∧ decodeTableWord 64 0x33 = some (.subkey .w8) := by decide

/-- SUBKEY at len = KE, and a block command. -/
theorem witness_AdmittedCommandIsAccepted :
    ((openS 8 []).idle ∧ admitted (.subkey .w4) (openS 8 []).arg1 (openS 8 [])) ∧
    ((idleS []).idle ∧ admitted .cipher (idleS []).arg1 (idleS [])) :=
  ⟨⟨⟨rfl, rfl⟩, show 8 ≤ cfgT.keyElements 4 by decide +kernel⟩, ⟨rfl, rfl⟩, rfl⟩

/-- One value for each reason of 30_encoding R70. -/
theorem witness_ReservedCtrlValueRaisesIllegalCmd :
    (∀ v : Word, (idleS [.bus (wr 0x010 .w8 v)]).idle ∧ (idleS [.bus (wr 0x010 .w8 v)]).sched = [.bus (wr 0x010 .w8 v)]) ∧
    decodeWord 0x07 = .error .opcode ∧ decodeWord 0x40 = .error .rsvNotZero ∧ decodeWord 0x10 = .error .wselNotZero :=
  ⟨fun _ => ⟨⟨rfl, rfl⟩, rfl⟩, by decide, by decide, by decide⟩

theorem witness_BlockCommandWithoutLockRaisesNotLocked :
    (Instr.cipher = .xorwin ∨ Instr.cipher = .cipher ∨ Instr.cipher = .cipherRec) ∧ (openS 0 []).idle ∧
      (openS 0 []).locked = false := ⟨by decide, ⟨rfl, rfl⟩, rfl⟩

/-- len = KE + 1, with KE = 8 and with KE = 0. -/
theorem witness_TooLongWindowRaisesOverflow :
    ((openS 9 []).idle ∧ (openS 9 []).cfg.keyBytes / Width.w4.bytes < (openS 9 []).arg1.toNat) ∧
    (({ State.resetOf cfgTiny with arg1 := 1 } : State).idle ∧
      cfgTiny.keyBytes / Width.w8.bytes < ({ State.resetOf cfgTiny with arg1 := 1 } : State).arg1.toNat) :=
  ⟨⟨⟨rfl, rfl⟩, by decide +kernel⟩, ⟨rfl, rfl⟩, by decide +kernel⟩

/-- KE = 8 and KE = 0. -/
theorem witness_ZeroLengthWindowNeverFails :
    ((openS 0 []).idle ∧ (openS 0 []).arg1 = 0) ∧ ((State.resetOf cfgTiny).idle ∧ (State.resetOf cfgTiny).arg1 = 0) :=
  ⟨⟨⟨rfl, rfl⟩, rfl⟩, ⟨rfl, rfl⟩, rfl⟩

/-- For NOP, LOCK, HASH and the block commands; SUBKEY at A1_L = KE. -/
theorem witness_completion :
    (∀ i, (busyS i []).busy = true ∧ (busyS i []).Inv) ∧
    ((accept (.subkey .w4) (openS 8 [])).busy = true ∧
      (accept (.subkey .w4) (openS 8 [])).a1L.toNat ≤ (openS 8 []).cfg.keyBytes / Width.w4.bytes) :=
  ⟨fun i => ⟨rfl, busyS_inv i []⟩, rfl, by decide +kernel⟩

theorem witness_LockIsIdempotent : (idleS []).idle ∧ (idleS []).locked = true := ⟨⟨rfl, rfl⟩, rfl⟩

/-- The last of the seven lanes. -/
theorem witness_XorwinFollowsTheWordRule :
    (busyS .xorwin []).Inv ∧ (busyS .xorwin []).busy = true ∧ 6 < (busyS .xorwin []).cfg.blockWords ∧
      ∃ t, exec .xorwin (busyS .xorwin []) = .next t := ⟨busyS_inv _ _, rfl, by decide +kernel, exec_next _ _⟩

/-- Any register; a listed pair is one of the ten. -/
theorem witness_RegisterReadsReturnTheirValues (off : Offset) (d : Word) :
    (idleS [.bus { dir := .read, off := off, width := .w8, data := d }]).idle ∧
    (idleS [.bus { dir := .read, off := off, width := .w8, data := d }]).sched =
      [.bus { dir := .read, off := off, width := .w8, data := d }] := ⟨⟨rfl, rfl⟩, rfl⟩

/-- PARAM's value in a busy and in a faulted state. -/
theorem witness_DiagnosticReadsAlwaysWork :
    (busyS .nop [.bus (rd 0x008 .w8)]).sched = [.bus (rd 0x008 .w8)] ∧
    (faultedS [.bus (rd 0x008 .w8)]).sched = [.bus (rd 0x008 .w8)] ∧ (faultedS []).fault = true ∧
    cfgT.wBytes + 0x100 * cfgT.idxBytes + 0x10000 * cfgT.blockWords + 0x100000000 * cfgT.keyBytes = 0x2000070404 := by
  decide +kernel

/-- The first eight bytes and the last byte of KEY. -/
theorem witness_KeyReadsReturnZero :
    ∀ x ∈ [rd 0x100000 .w8, rd 0x10001F .w1],
      (idleS [.bus x]).idle ∧ (idleS [.bus x]).sched = .bus x :: [] ∧ x.dir = .read ∧ x.addr % x.size = 0 ∧
        0x100000 ≤ x.addr ∧ x.addr + x.size ≤ 0x100000 + (idleS [.bus x]).cfg.keyBytes := by
  simp only [State.idle]; decide +kernel

/-- Each register; IRQEN while BUSY = 1; IDXOFF before LOCK. -/
theorem witness_RegisterWritesStoreTheirFields (off : Offset) (v : Word) :
    (openS 0 [.bus (wr off .w8 v)]).fault = false ∧
    (openS 0 [.bus (wr off .w8 v)]).sched = .bus { dir := .write, off := off, width := .w8, data := v } :: [] ∧
    (openS 0 [.bus (wr off .w8 v)]).busy = false ∧ (openS 0 [.bus (wr off .w8 v)]).locked = false ∧
    (busyS .nop [.bus (wr off .w8 v)]).fault = false ∧ (busyS .nop [.bus (wr off .w8 v)]).busy = true :=
  ⟨rfl, rfl, rfl, rfl, rfl, rfl⟩

/-- Idle and busy. -/
theorem witness_ReadOnlyRegisterWriteRaisesBadAccess (v : Word) :
    ((idleS [.bus (wr 0x000 .w8 v)]).fault = false ∧ (idleS [.bus (wr 0x000 .w8 v)]).sched = [.bus (wr 0x000 .w8 v)]) ∧
    ((busyS .nop [.bus (wr 0x048 .w8 v)]).fault = false ∧
      (busyS .nop [.bus (wr 0x048 .w8 v)]).sched = [.bus (wr 0x048 .w8 v)]) := ⟨⟨rfl, rfl⟩, rfl, rfl⟩

/-- The first word and the last bytes of REC, for a write and for a read. -/
theorem witness_RecordAccesses :
    (∀ q, (idleS q).Inv ∧ (idleS q).idle) ∧
    ∀ x ∈ [wr 0x1000 .w8 0x55, wr 0x101F .w1 0x55, wr 0x101C .w4 0x55, rd 0x1000 .w8, rd 0x101F .w1],
      (idleS [.bus x]).sched = .bus x :: [] ∧ x.addr % x.size = 0 ∧ 0x1000 ≤ x.addr ∧
        x.addr + x.size ≤ 0x1000 + (idleS [.bus x]).cfg.recBytes :=
  ⟨fun q => ⟨idleS_inv q, idleS_idle q⟩, by decide +kernel⟩

/-- The first word and the last byte of KEY, before LOCK. -/
theorem witness_UnlockedKeyWriteStoresItsBytes :
    (∀ q, (openS 0 q).Inv ∧ (openS 0 q).idle ∧ (openS 0 q).locked = false) ∧
    ∀ x ∈ [wr 0x100000 .w8 0x55, wr 0x10001F .w1 0x55],
      (openS 0 [.bus x]).sched = .bus x :: [] ∧ x.dir = .write ∧ x.addr % x.size = 0 ∧ 0x100000 ≤ x.addr ∧
        x.addr + x.size ≤ 0x100000 + (openS 0 [.bus x]).cfg.keyBytes :=
  ⟨fun q => ⟨openS_inv 0 q, ⟨rfl, rfl⟩, rfl⟩, by decide +kernel⟩

/-- The last byte of KEY, and IDXOFF. -/
theorem witness_LockedWriteRaisesLockedWrite :
    (∀ q, (idleS q).idle ∧ (idleS q).locked = true) ∧
    ∀ x ∈ [wr 0x10001F .w1 0x55, wr 0x040 .w8 0x55],
      (idleS [.bus x]).sched = .bus x :: [] ∧ x.dir = .write ∧ x.addr % x.size = 0 ∧
        ((0x100000 ≤ x.addr ∧ x.addr + x.size ≤ 0x100000 + (idleS [.bus x]).cfg.keyBytes) ∨
          (x.addr = 0x040 ∧ x.size = 8)) := ⟨fun q => ⟨idleS_idle q, rfl⟩, by decide +kernel⟩

theorem witness_MisalignedAccessRaisesMisaligned :
    (idleS [.bus (wr 0x012 .w4 0)]).fault = false ∧ (idleS [.bus (wr 0x012 .w4 0)]).sched = [.bus (wr 0x012 .w4 0)] ∧
      (wr 0x012 .w4 0).addr % (wr 0x012 .w4 0).size ≠ 0 := by decide +kernel

/-- The holes' first and last words, just past REGS, REC and KEY, and the end of the window; narrow accesses in REGS. -/
theorem witness_UnmappedAccessRaisesBadAccess :
    ∀ x ∈ [rd 0x050 .w8, rd 0xFF8 .w8, wr 0x1020 .w8 0, wr 0xFFFFF .w1 0, wr 0x100020 .w8 0, rd 0x1FFFFF .w1, rd 0x018 .w4,
        rd 0x04F .w1],
      (idleS [.bus x]).fault = false ∧ (idleS [.bus x]).sched = .bus x :: [] ∧ x.addr % x.size = 0 ∧
        ((¬ (x.addr + x.size ≤ 0x50) ∧
            ¬ (0x1000 ≤ x.addr ∧ x.addr + x.size ≤ 0x1000 + (idleS [.bus x]).cfg.recBytes) ∧
            ¬ (0x100000 ≤ x.addr ∧ x.addr + x.size ≤ 0x100000 + (idleS [.bus x]).cfg.keyBytes)) ∨
          (x.addr + x.size ≤ 0x50 ∧ x.size ≠ 8)) := by decide +kernel

/-- Registers, REC and KEY, read and written, while BUSY = 1. -/
theorem witness_AccessWhileBusyRaisesBusyAccess :
    ∀ x ∈ [rd 0x028 .w8, wr 0x010 .w8 0, wr 0x018 .w8 2, rd 0x1004 .w4, wr 0x101F .w1 0, wr 0x100000 .w8 0, rd 0x10001F .w1],
      (busyS .lock [.bus x]).busy = true ∧ (busyS .lock [.bus x]).fault = false ∧
        (busyS .lock [.bus x]).sched = .bus x :: [] ∧ x.addr % x.size = 0 ∧
        ((x.addr + x.size ≤ 0x50 ∧ x.size = 8) ∨
          (0x1000 ≤ x.addr ∧ x.addr + x.size ≤ 0x1000 + (busyS .lock [.bus x]).cfg.recBytes) ∨
          (0x100000 ≤ x.addr ∧ x.addr + x.size ≤ 0x100000 + (busyS .lock [.bus x]).cfg.keyBytes)) ∧
        (x.dir = .read → x.addr ∉ [0x000, 0x008, 0x018, 0x020, 0x048]) ∧
        (x.dir = .write → x.addr ∉ [0x000, 0x008, 0x020, 0x038, 0x048]) := by decide +kernel

/-- A write; a read of a diagnostic register; a read of ARG0, and a narrow read of STATUS. -/
theorem witness_FaultedAccessesDoNothing :
    (∀ x, (faultedS [.bus x]).fault = true ∧ (faultedS [.bus x]).sched = .bus x :: []) ∧
    (wr 0x020 .w8 1).dir = .write ∧
    ((rd 0x048 .w8).dir = .read ∧ (rd 0x048 .w8).size = 8 ∧ (rd 0x048 .w8).addr ∈ [0x000, 0x008, 0x018, 0x020, 0x048]) ∧
    ∀ x ∈ [rd 0x028 .w8, rd 0x018 .w4],
      x.dir = .read ∧ ¬ (x.size = 8 ∧ x.addr ∈ [0x000, 0x008, 0x018, 0x020, 0x048]) :=
  ⟨fun _ => ⟨rfl, rfl⟩, rfl, by decide +kernel, by decide +kernel⟩

/-- Idle, busy with every command, and just reset. -/
theorem witness_steps_from_the_invariant :
    (∀ i, (busyS i []).Inv ∧ ∃ t, step (busyS i []) = .next t) ∧
    (∀ x, (idleS [.bus x]).Inv ∧ ∃ t, step (idleS [.bus x]) = .next t) ∧
    ((idleS [.reset]).Inv ∧ ∃ t, step (idleS [.reset]) = .next t) :=
  ⟨fun i => ⟨busyS_inv i [], _, engineTurn_of_latched rfl (busyS_latched i [])⟩,
    fun _ => ⟨idleS_inv _, step_next_of_bus rfl⟩, idleS_inv _, _, rfl⟩

theorem witness_ConfigurationNeverChanges : ∃ t, step (busyS .hash []) = .next t :=
  ⟨_, engineTurn_of_latched rfl (busyS_latched .hash [])⟩

/-- A faulted idle BCE that gets a command, a completion after a fault, and reset after a fault. -/
theorem witness_OnlyResetClearsTheFaultRecord :
    ((faultedS [.bus (wr 0x010 .w8 1)]).fault = true ∧ (nextTurn (faultedS [.bus (wr 0x010 .w8 1)])).1 ≠ .reset ∧
      (faultedS [.bus (wr 0x010 .w8 1)]).busy = false ∧ ∃ t, step (faultedS [.bus (wr 0x010 .w8 1)]) = .next t) ∧
    ((recorded (rd 0x050 .w8) 6 (busyS .nop [])).fault = true ∧
      (nextTurn (recorded (rd 0x050 .w8) 6 (busyS .nop []))).1 ≠ .reset ∧
      ∃ t, step (recorded (rd 0x050 .w8) 6 (busyS .nop [])) = .next t) ∧
    ((faultedS [.reset]).fault = true ∧ (nextTurn (faultedS [.reset])).1 = .reset ∧ ∃ t, step (faultedS [.reset]) = .next t) :=
  ⟨⟨rfl, by decide, rfl, step_next_of_bus rfl⟩, ⟨rfl, by decide +kernel,
    _, engineTurn_of_latched (s := recorded (rd 0x050 .w8) 6 (busyS .nop [])) rfl (latched_of_latches (i := .nop) rfl rfl)⟩,
    rfl, rfl, _, rfl⟩

/-- A KEY write after LOCK, and reset after LOCK. -/
theorem witness_LockSealsKeyAndOffsetUntilReset :
    ((idleS [.bus (wr 0x100000 .w1 1)]).locked = true ∧ (nextTurn (idleS [.bus (wr 0x100000 .w1 1)])).1 ≠ .reset ∧
      ∃ t, step (idleS [.bus (wr 0x100000 .w1 1)]) = .next t) ∧
    ((idleS [.reset]).locked = true ∧ (nextTurn (idleS [.reset])).1 = .reset ∧ ∃ t, step (idleS [.reset]) = .next t) :=
  ⟨⟨rfl, by decide, step_next_of_bus rfl⟩, rfl, rfl, _, rfl⟩

/-- V-RS-2: reset while a command is in flight. -/
theorem witness_ResetStepClearsEverything : (busyS .cipher [.reset]).sched = .reset :: [] := rfl

theorem witness_BusyWindowFreezesTheOperands :
    (busyS .cipher [.bus (wr 0x020 .w8 1)]).busy = true ∧ (nextTurn (busyS .cipher [.bus (wr 0x020 .w8 1)])).1 ≠ .engine ∧
      (nextTurn (busyS .cipher [.bus (wr 0x020 .w8 1)])).1 ≠ .reset ∧
      ∃ t, step (busyS .cipher [.bus (wr 0x020 .w8 1)]) = .next t := ⟨rfl, by decide, by decide, step_next_of_bus rfl⟩

/-- The host polls and makes a mistake before the engine moves. -/
theorem witness_AcceptedCommandCompletesWithItsEffect (i : Instr) :
    (busyS i [.bus (rd 0x018 .w8), .bus (wr 0x012 .w4 0)]).Inv ∧
    (busyS i [.bus (rd 0x018 .w8), .bus (wr 0x012 .w4 0)]).busy = true ∧
    latched (busyS i [.bus (rd 0x018 .w8), .bus (wr 0x012 .w4 0)]) = some i ∧
    Turn.reset ∉ (busyS i [.bus (rd 0x018 .w8), .bus (wr 0x012 .w4 0)]).sched ∧
    ∃ u, exec i (busyS i [.bus (rd 0x018 .w8), .bus (wr 0x012 .w4 0)]) = .next u :=
  ⟨busyS_inv i _, rfl, busyS_latched i _, show Turn.reset ∉ [Turn.bus (rd 0x018 .w8), .bus (wr 0x012 .w4 0)] by decide,
    exec_next _ _⟩

/-- Each of the three faults. -/
theorem witness_CommandInFlightSurvivesAFault :
    (busyS .cipher []).busy = true ∧ (busyS .cipher []).fault = false ∧
    accessCheck (busyS .cipher []) (rd 0x1004 .w4) = some .busyAccess ∧
    accessCheck (busyS .cipher []) (rd 0x050 .w8) = some .badAccess ∧
    accessCheck (busyS .cipher []) (wr 0x012 .w4 0) = some .misaligned ∧
    ∃ u, exec .cipher (busyS .cipher []) = .next u :=
  ⟨rfl, rfl, by decide +kernel, by decide +kernel, by decide +kernel, exec_next _ _⟩

/-- Another key and another offset: a completion of HASH, and a read of KEY. -/
theorem witness_NothingButBlockCompletionsDependsOnSecrets :
    (sameButSecrets (busyS .hash []) { busyS .hash [] with keyStore := [], idxoff := 9 } ∧
      (nextTurn (busyS .hash [])).1 = .engine ∧ latched (busyS .hash []) ≠ some .xorwin ∧
      latched (busyS .hash []) ≠ some .cipher ∧ latched (busyS .hash []) ≠ some .cipherRec ∧
      ∃ t, step (busyS .hash []) = .next t) ∧
    (sameButSecrets (idleS [.bus (rd 0x100000 .w8)]) { idleS [.bus (rd 0x100000 .w8)] with keyStore := [], idxoff := 9 } ∧
      (nextTurn (idleS [.bus (rd 0x100000 .w8)])).1 ≠ .engine ∧ ∃ t, step (idleS [.bus (rd 0x100000 .w8)]) = .next t) :=
  ⟨⟨rfl, rfl, by decide +kernel, by decide +kernel, by decide +kernel, _, engineTurn_of_latched rfl (busyS_latched .hash [])⟩,
    rfl, by decide, step_next_of_bus rfl⟩

/-- Another host with other turns: an access, and a completion. -/
theorem witness_SameTransactionDrivesTheBceAlike :
    (sameBce (idleS []) { idleS [.host] with host := (hosted 2).host, rdata := 5 } ∧
      ∃ t, busAccess (rd 0x1004 .w4) (idleS []) = .next t) ∧
    (sameBce (busyS .cipher []) { busyS .cipher [.host] with host := (hosted 2).host } ∧
      ∃ t, engineTurn (busyS .cipher []) = .next t) :=
  ⟨⟨rfl, busAccess_next _ _⟩, rfl, _, engineTurn_of_latched rfl (busyS_latched .cipher [])⟩

theorem witness_HostStatementsDoNoBceStep :
    (nextTurn (hosted 2)).1 = .host ∧ currentStmt (hosted 2) = some (.bltu 0 (.imm 2) (.label 3)) ∧
      transactionOf (hosted 2) (.bltu 0 (.imm 2) (.label 3)) = none := by decide +kernel

/-- The host about to take one statement: two labels before it, one after it. -/
def hostAt (st : Stmt) : State :=
  { hosted 2 with host := { (hosted 2).host with prog := [.label 1, .label 1, st, .label 4] } }

theorem witness_HostArithmeticWritesItsRegister (hD hS : HReg) (imm : Word) (k : Nat) :
    (∀ st, (hostAt st).host.status = .running ∧ (hostAt st).sched = .host :: []) ∧
    (hostAt (.li hD imm)).host.prog[(hostAt (.li hD imm)).host.place]? = some (.li hD imm) ∧
    (hostAt (.addi hD hS imm)).host.prog[(hostAt (.addi hD hS imm)).host.place]? = some (.addi hD hS imm) ∧
    (hostAt (.andi hD hS imm)).host.prog[(hostAt (.andi hD hS imm)).host.place]? = some (.andi hD hS imm) ∧
    (hostAt (.shli hD hS k)).host.prog[(hostAt (.shli hD hS k)).host.place]? = some (.shli hD hS k) :=
  ⟨fun _ => ⟨rfl, rfl⟩, rfl, rfl, rfl, rfl⟩

/-- h0 = 1: each branch taken, to a label after it and to the nearer of two before it; each not taken, to a label that the program
does not hold; and an assertion that holds. -/
theorem witness_HostBranchesCompareByValue :
    (∀ st, (hostAt st).host.status = .running ∧ (hostAt st).sched = .host :: [] ∧
      (hostAt st).host.prog[(hostAt st).host.place]? = some st) ∧
    (∀ st, (hostAt st).host.regs[(0 : HReg)] = 1 ∧ srcValue (hostAt st) (.imm 1) = 1 ∧ srcValue (hostAt st) (.imm 2) = 2) ∧
    (let st := Stmt.bltu 0 (.imm 2) (.label 4); targetPlace (hostAt st) (.label 4) = some 3) ∧
    (let st := Stmt.bne 0 (.imm 2) (.back 1); targetPlace (hostAt st) (.back 1) = some 1) ∧
    (let st := Stmt.beq 0 (.imm 1) (.back 1); targetPlace (hostAt st) (.back 1) = some 1) ∧
    (let st := Stmt.bltu 0 (.imm 1) (.label 9); targetPlace (hostAt st) (.label 9) = none) :=
  ⟨fun _ => ⟨rfl, rfl, rfl⟩, fun _ => ⟨rfl, rfl, rfl⟩, by decide +kernel, by decide +kernel, by decide +kernel,
    by decide +kernel⟩

theorem witness_HostLoadsAndStoresAreBusAccesses (n : Width) (hD hA : HReg) (src : Src) (a : Offset) :
    (∀ st, (hostAt st).host.status = .running ∧ (hostAt st).sched = .host :: []) ∧
    (hostAt (.st n (.at a) src)).host.prog[(hostAt (.st n (.at a) src)).host.place]? = some (.st n (.at a) src) ∧
    (hostAt (.st n (.reg hA) src)).host.prog[(hostAt (.st n (.reg hA) src)).host.place]? = some (.st n (.reg hA) src) ∧
    (hostAt (.ld n hD (.at a))).host.prog[(hostAt (.ld n hD (.at a))).host.place]? = some (.ld n hD (.at a)) ∧
    (hostAt (.ld n hD (.reg hA))).host.prog[(hostAt (.ld n hD (.reg hA))).host.place]? = some (.ld n hD (.reg hA)) :=
  ⟨fun _ => ⟨rfl, rfl⟩, rfl, rfl, rfl, rfl⟩

/-- The widest index that fits, and the last byte of an index. -/
theorem witness_index_hash : truncIdx cfgT 0xFFFFFFFF = 0xFFFFFFFF ∧ 3 < cfgT.idxBytes := by decide +kernel

/-- len = KE, and the empty window of KE = 0. -/
theorem witness_SelectedWindowsStayInsideTheKey : 8 ≤ cfgT.keyBytes / 4 ∧ 0 ≤ cfgTiny.keyBytes / 8 := by decide +kernel

/-- For R104 and R107, and for the first run of the involution. -/
theorem witness_block_command_pairs :
    (idleS []).Inv ∧ (idleS []).idle ∧ (idleS []).locked = true ∧
    ∀ i ∈ [Instr.xorwin, .cipher, .cipherRec], i = .xorwin ∨ i = .cipher ∨ i = .cipherRec :=
  ⟨idleS_inv [], ⟨rfl, rfl⟩, rfl, by decide⟩

/-- Between the two runs of the involution: an acknowledged, idle, locked BCE with the record of the first run. -/
theorem witness_BlockCommandsAreInvolutions (m : Memory) :
    let u := { idleS [] with recBuf := m, result := 9, done := false }
    u.idle ∧ u.cfg = (idleS []).cfg ∧ u.locked = true ∧ u.keyStore = (idleS []).keyStore ∧ u.idxoff = (idleS []).idxoff ∧
      u.arg0 = (idleS []).arg0 ∧ u.recBuf = m := ⟨⟨rfl, rfl⟩, rfl, rfl, rfl, rfl, rfl, rfl⟩

/-- The BCE of `idleS` with another payload and operand. -/
def otherS : State := { idleS [] with arg0 := 5, recBuf := [(5, 0x99)] }

theorem otherS_inv : otherS.Inv := { idleS_inv [] with
  recForm := show Memory.wf cfgT.recBytes [(5, 0x99)] = true by decide +kernel
  busyOperands := fun h => Bool.noConfusion h
  busyCommand := fun h => Bool.noConfusion h }

/-- MAXI = 2: transforms with different starts on one record, and CIPHER and XORWIN with the same start on two. -/
theorem witness_SuccessiveTransformsComposeByXor :
    ((idleS []).Inv ∧ (idleS []).idle ∧ (idleS []).locked = true ∧ blockStart .xorwin 5 (idleS []) = some 1 ∧
      blockStart .cipherRec 0 (idleS []) = some 0 ∧ blockStart .cipher 3 (idleS []) = some 1) ∧
    (otherS.Inv ∧ otherS.idle ∧ otherS.locked = true ∧ (idleS []).cfg = otherS.cfg ∧
      (idleS []).keyStore = otherS.keyStore ∧ blockStart .cipher (idleS []).arg0 (idleS []) = some 1 ∧
      blockStart .xorwin otherS.arg0 otherS = some 1) :=
  ⟨⟨idleS_inv [], ⟨rfl, rfl⟩, rfl, by decide +kernel, by decide +kernel, by decide +kernel⟩,
    otherS_inv, ⟨rfl, rfl⟩, rfl, rfl, rfl, by decide +kernel, by decide +kernel⟩

/-- Other ARG1, RESULT, IRQEN and latched length. -/
theorem witness_TransformsKeepNoHistory :
    let s := busyS .cipher []
    let t := { s with arg1 := 5, result := 6, irqen := 1, a1L := 5 }
    s.busy = true ∧ t.busy = true ∧ s.cfg = t.cfg ∧ s.keyStore = t.keyStore ∧ s.idxoff = t.idxoff ∧ s.a0L = t.a0L ∧
      s.recBuf = t.recBuf ∧ ∃ s', exec .cipher s = .next s' :=
  ⟨rfl, rfl, rfl, rfl, rfl, rfl, rfl, exec_next _ _⟩

end Sys2Proof.Tests
end

/-! ## No step changes the configuration -/

namespace Sys2Proof.Machine

/-- A register write leaves the configuration alone. -/
@[simp] theorem writeReg_cfg (a : Nat) (v : Word) (s : State) : (writeReg a v s).cfg = s.cfg := by
  rcases writeReg_cases a v s with ⟨_, h⟩ | ⟨_, h⟩ | ⟨_, h⟩ | ⟨_, h⟩ | ⟨_, h⟩ | h <;> rw [h]

/-- A write outside CTRL leaves the configuration alone. -/
@[simp] theorem storeValue_cfg (x : Access) (s : State) : (storeValue x s).cfg = s.cfg := by
  rcases storeValue_cases x s with ⟨_, h⟩ | ⟨_, h⟩ | ⟨_, h⟩ | ⟨_, h⟩ <;> rw [h]
  exact writeReg_cfg _ _ _

/-- Issuing a command leaves the configuration alone. -/
@[simp] theorem issue_cfg (i : Instr) (c : State → Option FaultCode) (s : State) : (issue i c s).cfg = s.cfg := by
  rcases issue_cases i c s with ⟨_, h⟩ | ⟨f, _, _, h⟩ | ⟨_, _, h⟩ <;> simp [h]

/-- States with the same BCE have the same configuration. -/
theorem sameBce_cfg {s t : State} (h : sameBce s t) : t.cfg = s.cfg := ((sameBce_iff s t).1 h).1.symm

/-- A host access leaves the configuration alone, whether it is performed, fails a check, or finds FAULT = 1. -/
theorem busAccess_cfg {x : Access} {s t : State} (h : busAccess x s = .next t) : t.cfg = s.cfg := by
  rcases busAccess_cases h with
    ⟨_, rfl⟩ | ⟨f, _, _, rfl⟩ | ⟨_, _, _, rfl⟩ | ⟨_, _, _, _, _, ⟨e, _, rfl⟩ | ⟨i, _, rfl⟩⟩ | ⟨_, _, _, _, rfl⟩
  · simp [faultedAccess]
  · simp [failAccess]
  · simp
  · simp
  · simp
  · simp

/-- Settles O37: by what a step can do, which is reset, nothing to the BCE, one host access, or the completion of the latched
command; each keeps the configuration. -/
theorem configurationNeverChanges : Obligations.ConfigurationNeverChanges := by
  intro s t h
  rcases step_cases h with ⟨_, rfl⟩ | ⟨_, hs⟩ | ⟨x, u, v, _, _, hu, hv, hs⟩ | ⟨i, _, _, _, rfl⟩
  · simp
  · exact sameBce_cfg hs
  · calc t.cfg = v.cfg := sameBce_cfg hs
      _ = u.cfg := busAccess_cfg hv
      _ = s.cfg := sameBce_cfg hu
  · simp

end Sys2Proof.Machine

/-! ## Elaboration and the constraints of 00_scope R9 -/

namespace Sys2Proof

/-- A table is a permutation of the bytes exactly when it lists no byte twice (10_state R40). -/
theorem substitute_bijective_iff (sbox : Vector Byte 256) :
    Function.Bijective (Machine.substitute sbox) ↔ sbox.toList.Nodup := by
  constructor
  · intro ⟨inj, _⟩
    rw [List.nodup_iff_injective_getElem]
    intro i j hij
    have hi : i.val < 256 := by simpa using i.isLt
    have hj : j.val < 256 := by simpa using j.isLt
    have hb : BitVec.ofFin ⟨i.val, hi⟩ = BitVec.ofFin ⟨j.val, hj⟩ := inj (by simpa [Machine.substitute] using hij)
    have hn := congrArg BitVec.toNat hb
    exact Fin.ext hn
  · exact fun h => ⟨Machine.substitute_injective h, Machine.substitute_surjective h⟩

/-- Elaboration answers hardware with the parameters it was given exactly when they break no constraint. -/
theorem elaborate_ok_iff (p : Params) : (∃ c, elaborate p = .ok c ∧ c.toParams = p) ↔ p.error? = none := by
  constructor
  · rintro ⟨c, _, rfl⟩
    exact c.ok
  · intro h
    refine ⟨⟨p, h⟩, ?_, rfl⟩
    unfold elaborate
    split
    · rfl
    · next e he => rw [h] at he; cases he

/-- The checks of elaboration pass exactly when every constraint of 00_scope R9 holds, in the order of its table. -/
theorem Params.error?_eq_none_iff (p : Params) :
    p.error? = none ↔
      (p.wBytes = 1 ∨ p.wBytes = 2 ∨ p.wBytes = 4 ∨ p.wBytes = 8) ∧ p.align = p.wBytes ∧
      (1 ≤ p.blockWords ∧ p.blockWords ≤ 65535) ∧ p.blockWords ≤ p.keyElements p.wBytes ∧
      p.blockBytes = p.blockWords * p.wBytes ∧ (p.idxBytes = 4 ∨ p.idxBytes = 8) ∧ p.idxBytes % p.wBytes = 0 ∧
      (1 ≤ p.keyBytes ∧ p.keyBytes ≤ 0x100000) ∧ p.recBytes ≤ 0x1000 ∧ p.sbox.toList.Nodup ∧ p.usizeBits = 64 ∧
      1 ≤ p.tMod := by
  constructor
  · intro h
    obtain ⟨hw, ha, hl, hb, hi, him, hk, hlk, hr, hs, hu, ht⟩ := Config.constraints ⟨p, h⟩
    exact ⟨hw, ha, hl, hlk, hb, hi, him, hk, hr, hs, hu, Nat.one_le_iff_ne_zero.2 ht⟩
  · rintro ⟨hw, ha, hl, hlk, hb, hi, him, hk, hr, hs, hu, ht⟩
    have ht := Nat.one_le_iff_ne_zero.1 ht
    simp only [Params.error?, hw, ha, hl, hlk, hb, hi, him, hk, hr, hs, hu, ht, not_true, ne_eq, and_self, if_false]

/-- Settles O59: elaboration answers exactly when its checks pass, and they are the constraints of 00_scope R9, a table without
repeats being a permutation. -/
theorem elaborationAcceptsExactlyLegalParameters : Obligations.ElaborationAcceptsExactlyLegalParameters := by
  intro p
  rw [elaborate_ok_iff, p.error?_eq_none_iff, substitute_bijective_iff]
  rfl

end Sys2Proof

/-! ## The invariant of the BCE's state (10_state R26 to R39, 20_memory R61) -/

namespace Sys2Proof.Machine

/-- The invariant speaks of the BCE alone, not of the host, the turns or the value read last. -/
theorem inv_of_sameBce {s t : State} (h : s.Inv) (hs : sameBce s t) : t.Inv :=
  cast (congrArg State.Inv hs) { h with }

/-- The state after reset meets the invariant: the buffers and the fault record are empty and nothing is in flight (R146). -/
theorem resetOf_inv (c : Config) : (State.resetOf c).Inv where
  recForm := rfl
  keyForm := rfl
  idxoffWidth := truncIdx_zero c
  legalCode := Nat.zero_le 7
  faultRecord := by simp [State.resetOf]
  faultInfo _ := rfl
  busyNotDone := nofun
  busyOperands := nofun
  busyCommand := nofun

/-- Reset leads to the state after reset, up to the host, its turns and the value it read last. -/
theorem applyReset_inv (s : State) : (applyReset s).Inv := inv_of_sameBce (resetOf_inv s.cfg) rfl

/-- Raising a fault keeps the invariant: it writes a legal code, or nothing (60_exceptions R123, R124). -/
theorem raise_inv (f : FaultCode) (info : Word) {s : State} (h : s.Inv) : (raise f info s).Inv := by
  cases hf : s.fault with
  | true => rwa [raise_of_fault f info hf]
  | false =>
    rw [raise_of_ok f info hf]
    exact { h with
      legalCode := f.code_bounds.2
      faultRecord := ⟨fun _ => f.code_bounds.1, fun _ => rfl⟩
      faultInfo := nofun }

/-- Accepting an admitted command keeps the invariant: the latches take it and its operands, and DONE is clear (R39). -/
theorem accept_inv {i : Instr} {s : State} (h : s.Inv) (ha : admitted i s.arg1 s) : (accept i s).Inv :=
  { h with
    busyNotDone := fun _ => rfl
    busyOperands := fun _ => ⟨rfl, rfl⟩
    busyCommand := fun _ => ⟨i, rfl, rfl, ha⟩ }

/-- Issuing a command keeps the invariant, whichever way its checks go. -/
theorem issue_inv (i : Instr) {s : State} (h : s.Inv) : (issue i (commandCheck i) s).Inv := by
  rcases issue_cases i (commandCheck i) s with ⟨_, e⟩ | ⟨f, _, _, e⟩ | ⟨_, hc, e⟩ <;> rw [e]
  · exact h
  · exact raise_inv f _ h
  · exact accept_inv h ((commandCheck_eq_none i s).1 hc)

/-- Completing a command keeps the invariant: its effect keeps REC canonical, and nothing is in flight after it (R39). -/
theorem complete_inv (i : Instr) {s : State} (h : s.Inv) : (complete (commandEffect i) s).Inv where
  recForm := by simpa using commandEffect_recForm i h.recForm
  keyForm := by simpa using h.keyForm
  idxoffWidth := by simpa using h.idxoffWidth
  legalCode := by simpa using h.legalCode
  faultRecord := by simpa using h.faultRecord
  faultInfo := by simpa using h.faultInfo
  busyNotDone := nofun
  busyOperands := nofun
  busyCommand := nofun

/-- A register write keeps the invariant, if while BUSY = 1 it writes IRQEN (20_memory R56, R61). -/
theorem writeReg_inv {a : Nat} (v : Word) {s : State} (h : s.Inv) (hb : s.busy = true → a = offIrqen) :
    (writeReg a v s).Inv := by
  rcases writeReg_cases a v s with ⟨_, e⟩ | ⟨_, e⟩ | ⟨ha, e⟩ | ⟨ha, e⟩ | ⟨_, e⟩ | e <;> rw [e]
  · exact { h with busyNotDone := fun hs => by simp [h.busyNotDone hs] }
  · exact { h with }
  · exact { h with busyOperands := fun hs => absurd (ha.symm.trans (hb hs)) (by decide) }
  · exact { h with busyOperands := fun hs => absurd (ha.symm.trans (hb hs)) (by decide) }
  · exact { h with idxoffWidth := truncIdx_truncIdx s.cfg v }
  · exact h

/-- A write outside CTRL keeps the invariant, if while BUSY = 1 it is IRQEN's: stored bytes stay inside REC and KEY. -/
theorem storeValue_inv {x : Access} {s : State} (h : s.Inv) (hb : s.busy = true → x.addr = offIrqen) :
    (storeValue x s).Inv := by
  rcases storeValue_cases x s with ⟨_, e⟩ | ⟨hr, e⟩ | ⟨hr, e⟩ | ⟨_, e⟩ <;> rw [e]
  · exact writeReg_inv _ h hb
  · obtain ⟨_, _⟩ := regionOf_recBuf hr
    exact { h with recForm := Memory.wf_write h.recForm (by rw [bytesOf_length]; omega) }
  · obtain ⟨_, _⟩ := regionOf_key hr
    exact { h with keyForm := Memory.wf_write h.keyForm (by rw [bytesOf_length]; omega) }
  · exact h

/-- While BUSY = 1 the only write that passes the checks is IRQEN's (20_memory R56). -/
theorem addr_of_busy_write {s : State} {x : Access} (hc : accessCheck s x = none) (hd : x.dir = .write)
    (hb : s.busy = true) : x.addr = offIrqen := by
  obtain ⟨_, r, _, _, _, hbusy, _⟩ := accessCheck_none hc
  simpa [allowedWhileBusy, hd] using hbusy hb

/-- A host access keeps the invariant, whether it is performed, fails a check, or finds FAULT = 1. -/
theorem busAccess_inv {x : Access} {s t : State} (h : s.Inv) (hx : busAccess x s = .next t) : t.Inv := by
  have hread (v : Word) {u : State} (hu : u.Inv) : (returnRead x v u).Inv :=
    inv_of_sameBce hu (sameBce_returnRead x v u)
  rcases busAccess_cases hx with
    ⟨_, rfl⟩ | ⟨f, _, _, rfl⟩ | ⟨_, _, _, rfl⟩ | ⟨_, _, _, _, _, ⟨e, _, rfl⟩ | ⟨i, _, rfl⟩⟩ | ⟨_, hc, hd, _, rfl⟩
  · exact hread _ h
  · exact hread _ (raise_inv f _ h)
  · exact hread _ h
  · exact raise_inv _ _ h
  · exact issue_inv i h
  · exact storeValue_inv h (addr_of_busy_write hc hd)

/-- Settles O34: by what a step can do, which is reset, nothing to the BCE, one host access, or the completion of the latched
command; each keeps the invariant. -/
theorem everyStepKeepsTheStateInvariant : Obligations.EveryStepKeepsTheStateInvariant := by
  intro s t h hst
  rcases step_cases hst with ⟨_, rfl⟩ | ⟨_, hs⟩ | ⟨x, u, v, _, _, hu, hv, hs⟩ | ⟨i, _, _, _, rfl⟩
  · exact applyReset_inv _
  · exact inv_of_sameBce h hs
  · exact inv_of_sameBce (busAccess_inv (inv_of_sameBce h hu) hv) hs
  · exact complete_inv i (inv_of_sameBce h (sameBce_sched _ s))

/-- The engine's turn never stops the machine: the latches of a command in flight name it (R39). -/
theorem engineTurn_next_of_inv {s : State} (h : s.Inv) : ∃ t, engineTurn s = .next t := by
  cases hb : s.busy with
  | false => exact ⟨s, by simp [engineTurn, hb]⟩
  | true =>
    obtain ⟨i, hopc, hwsel, _⟩ := h.busyCommand hb
    exact ⟨_, engineTurn_of_latched hb (latched_of_latches hopc hwsel)⟩

/-- Settles O36: of the four turns only the engine's can stop the machine, with latches of no command, which the invariant
excludes. -/
theorem everyStepAnswersANextState : Obligations.EveryStepAnswersANextState := by
  intro s h
  rw [step, stepTurn]
  by_cases ht : (nextTurn s).1 = .engine
  · rw [ht]
    exact engineTurn_next_of_inv (inv_of_sameBce h (sameBce_sched _ s))
  · exact takeTurn_next ht _

end Sys2Proof.Machine

/-! ## The secrets KEY and IDXOFF: what answers alike whatever they hold (10_state R35, 20_memory R54) -/

namespace Sys2Proof.Machine

/-- The state with other secrets. -/
def withSecrets (k : Memory) (o : Word) (s : State) : State := { s with keyStore := k, idxoff := o }

/-- States differ only in the secrets when one is the other with some secrets put in. -/
theorem sameButSecrets_iff {s t : State} : sameButSecrets s t ↔ ∃ k o, t = withSecrets k o s := by
  constructor
  · exact fun h => ⟨t.keyStore, t.idxoff, h.symm⟩
  · rintro ⟨k, o, rfl⟩; rfl

theorem sameButSecrets_of_eq {k : Memory} {o : Word} {s t : State} (h : t = withSecrets k o s) : sameButSecrets s t :=
  sameButSecrets_iff.2 ⟨k, o, h⟩

/-! ### Operations that neither read nor write the secrets -/

theorem raise_withSecrets (f : FaultCode) (info : Word) (k : Memory) (o : Word) (s : State) :
    raise f info (withSecrets k o s) = withSecrets k o (raise f info s) := by
  cases hf : s.fault with
  | true => rw [raise_of_fault f info hf]; exact raise_of_fault f info hf
  | false => rw [raise_of_ok f info hf]; exact raise_of_ok f info hf

theorem returnRead_withSecrets (x : Access) (v : Word) (k : Memory) (o : Word) (s : State) :
    returnRead x v (withSecrets k o s) = withSecrets k o (returnRead x v s) := by
  unfold returnRead
  cases x.dir <;> rfl

theorem commandCheck_withSecrets (i : Instr) (k : Memory) (o : Word) (s : State) :
    commandCheck i (withSecrets k o s) = commandCheck i s := by cases i <;> rfl

/-- Issuing a command reads no secret: not its checks, nor the latches it fills. -/
theorem issue_withSecrets (i : Instr) (k : Memory) (o : Word) (s : State) :
    issue i (commandCheck i) (withSecrets k o s) = withSecrets k o (issue i (commandCheck i) s) := by
  have hf : (withSecrets k o s).fault = s.fault := rfl
  simp only [issue, commandCheck_withSecrets, hf]
  cases s.fault with
  | true => rfl
  | false =>
    cases commandCheck i s with
    | none => rfl
    | some f => exact raise_withSecrets f _ k o s

/-- The effect of a command that is no block command is the same under any secrets: HASH does not apply IDXOFF, and SUBKEY reports
the start of a window, not its words. -/
theorem commandEffect_withSecrets {i : Instr} (hx : i ≠ .xorwin) (hc : i ≠ .cipher) (hr : i ≠ .cipherRec)
    (k : Memory) (o : Word) (s : State) :
    commandEffect i (withSecrets k o s) = withSecrets k o (commandEffect i s) := by
  cases i with
  | xorwin => exact absurd rfl hx
  | cipher => exact absurd rfl hc
  | cipherRec => exact absurd rfl hr
  | nop => rfl
  | lock => rfl
  | hash => rfl
  | subkey wb => rfl

theorem branch_withSecrets (b : Bool) (tg : Target) (k : Memory) (o : Word) (s : State) :
    branch b tg (withSecrets k o s) = withSecrets k o (branch b tg s) := by
  have ht : targetPlace (withSecrets k o s) tg = targetPlace s tg := by cases tg <;> rfl
  simp only [branch, ht]
  cases b with
  | false => rfl
  | true => cases targetPlace s tg <;> rfl

/-! ### Operations that may write a secret, but tell nothing of it -/

theorem sameButSecrets_writeReg (a : Nat) (v : Word) (k : Memory) (o : Word) (s : State) :
    sameButSecrets (writeReg a v s) (writeReg a v (withSecrets k o s)) := by
  unfold writeReg
  split_ifs <;> rfl

theorem sameButSecrets_storeValue (x : Access) (k : Memory) (o : Word) (s : State) :
    sameButSecrets (storeValue x s) (storeValue x (withSecrets k o s)) := by
  have hc : (withSecrets k o s).cfg = s.cfg := rfl
  simp only [storeValue, hc]
  cases regionOf s.cfg x.addr x.size with
  | none => rfl
  | some r =>
    cases r with
    | regs => exact sameButSecrets_writeReg x.addr x.data k o s
    | recBuf => rfl
    | key => rfl

/-- A host access is answered alike under any secrets: KEY and IDXOFF read as 0, and no check looks at what they hold. -/
theorem busAccess_withSecrets {x : Access} {s s' : State} (k : Memory) (o : Word) (h : busAccess x s = .next s') :
    ∃ t', busAccess x (withSecrets k o s) = .next t' ∧ sameButSecrets s' t' := by
  cases hf : s.fault with
  | true =>
    rw [busAccess_of_fault x hf] at h
    cases h
    exact ⟨_, busAccess_of_fault x hf, sameButSecrets_of_eq (returnRead_withSecrets x _ k o s)⟩
  | false =>
    cases hc : accessCheck s x with
    | some f =>
      rw [busAccess_of_fail hf hc] at h
      cases h
      exact ⟨_, busAccess_of_fail hf hc, rfl⟩
    | none =>
      cases hd : x.dir with
      | read =>
        rw [busAccess_read hf hc hd] at h
        cases h
        exact ⟨_, busAccess_read hf hc hd, rfl⟩
      | write =>
        by_cases ha : x.addr = offCtrl
        · have hb : s.busy = false := not_busy_of_ctrl hc hd ha
          have ht := busAccess_ctrl (s := withSecrets k o s) hf hc hd ha
          rw [busAccess_ctrl hf hc hd ha] at h
          unfold ctrlWrite at h ht
          cases hw : decodeWord x.data with
          | error e =>
            rw [hw] at h ht
            cases h
            exact ⟨_, ht, sameButSecrets_of_eq (raise_withSecrets _ _ k o s)⟩
          | ok i =>
            simp only [hw, exec_of_not_busy i hb] at h ht
            cases h
            exact ⟨_, ht.trans (exec_of_not_busy i hb), sameButSecrets_of_eq (issue_withSecrets i k o s)⟩
        · rw [busAccess_write hf hc hd ha] at h
          cases h
          exact ⟨_, busAccess_write hf hc hd ha, sameButSecrets_storeValue x k o s⟩

/-- `ld` leaves the value that its access read in its register (30_encoding R77). -/
theorem execStmt_ld {n : Width} (hD : HReg) {off : OffExpr} {s u : State}
    (h : busAccess { dir := .read, off := offValue s off, width := n, data := 0 } (advance s) = .next u) :
    execStmt (.ld n hD off) s = .next (setHostReg hD u.rdata u) := by
  simp only [execStmt, h]

/-- A statement of the host is answered alike under any secrets. -/
theorem execStmt_withSecrets {st : Stmt} {s s' : State} (k : Memory) (o : Word) (h : execStmt st s = .next s') :
    ∃ t', execStmt st (withSecrets k o s) = .next t' ∧ sameButSecrets s' t' := by
  cases st with
  | st n off src => exact busAccess_withSecrets k o h
  | ld n hD off =>
    obtain ⟨u, hu⟩ := busAccess_next { dir := .read, off := offValue s off, width := n, data := 0 } (advance s)
    obtain ⟨u', hu', hs⟩ := busAccess_withSecrets k o hu
    obtain ⟨k', o', rfl⟩ := sameButSecrets_iff.1 hs
    rw [execStmt_ld hD hu] at h
    cases h
    exact ⟨_, execStmt_ld (s := withSecrets k o s) hD hu', rfl⟩
  | bne hS v tg => cases h; exact ⟨_, rfl, sameButSecrets_of_eq (branch_withSecrets _ tg k o s)⟩
  | beq hS v tg => cases h; exact ⟨_, rfl, sameButSecrets_of_eq (branch_withSecrets _ tg k o s)⟩
  | bltu hS v tg => cases h; exact ⟨_, rfl, sameButSecrets_of_eq (branch_withSecrets _ tg k o s)⟩
  | assert hS v =>
    by_cases hv : hostReg s hS = srcValue s v
    · rw [execStmt, if_pos hv] at h; cases h; exact ⟨_, if_pos hv, rfl⟩
    · rw [execStmt, if_neg hv] at h; cases h; exact ⟨_, if_neg hv, rfl⟩
  | _ => cases h; exact ⟨_, rfl, rfl⟩

/-- The host's turn is answered alike under any secrets. -/
theorem hostTurn_withSecrets {s s' : State} (k : Memory) (o : Word) (h : hostTurn s = .next s') :
    ∃ t', hostTurn (withSecrets k o s) = .next t' ∧ sameButSecrets s' t' := by
  have hc : currentStmt (withSecrets k o s) = currentStmt s := rfl
  simp only [hostTurn, hc] at h ⊢
  cases hcs : currentStmt s with
  | none => rw [hcs] at h; cases h; exact ⟨_, rfl, rfl⟩
  | some st => rw [hcs] at h; exact execStmt_withSecrets k o h

/-- The engine's turn is answered alike under any secrets, but for the completion of a block command. -/
theorem engineTurn_withSecrets {s s' : State} (k : Memory) (o : Word)
    (hblock : s.busy = true →
      latched s ≠ some .xorwin ∧ latched s ≠ some .cipher ∧ latched s ≠ some .cipherRec)
    (h : engineTurn s = .next s') :
    ∃ t', engineTurn (withSecrets k o s) = .next t' ∧ sameButSecrets s' t' := by
  rcases engineTurn_cases h with ⟨hb, rfl⟩ | ⟨i, hb, hl, rfl⟩
  · exact ⟨withSecrets k o s', by simp [engineTurn, withSecrets, hb], rfl⟩
  · obtain ⟨hx, hc, hr⟩ := hblock hb
    rw [hl] at hx hc hr
    have he := commandEffect_withSecrets (i := i) (by simpa using hx) (by simpa using hc) (by simpa using hr) k o s
    exact ⟨_, engineTurn_of_latched hb hl, sameButSecrets_of_eq (by rw [complete, he]; rfl)⟩

/-- Settles O45: a step takes the same turn under any secrets, and every turn but the completion of a block command is
answered alike. -/
theorem nothingButBlockCompletionsDependsOnSecrets : Obligations.NothingButBlockCompletionsDependsOnSecrets := by
  intro s t s' hst hblock h
  obtain ⟨k, o, rfl⟩ := sameButSecrets_iff.1 hst
  have ht : step (withSecrets k o s) =
      takeTurn (nextTurn s).1 (withSecrets k o { s with sched := (nextTurn s).2 }) := rfl
  rw [ht]
  unfold step stepTurn at h
  cases hn : (nextTurn s).1 with
  | reset => rw [hn] at h; cases h; exact ⟨_, rfl, rfl⟩
  | bus x => rw [hn] at h; exact busAccess_withSecrets k o h
  | host => rw [hn] at h; exact hostTurn_withSecrets k o h
  | engine =>
    rw [hn] at h
    exact engineTurn_withSecrets k o (hblock hn) h

end Sys2Proof.Machine

/-! ## Accesses to the registers (10_state R22 to R36) -/

namespace Sys2Proof.Machine

/-- An 8-byte read in REGS has the value of its register. -/
theorem readValue_reg (s : State) {off : Offset} (d : Word) (hr : off.toNat ≤ 0x48) :
    readValue s { dir := .read, off := off, width := .w8, data := d } = readReg s off.toNat := by
  have h : off.toNat + 8 ≤ 0x50 := by omega
  simp only [readValue, Access.addr, Access.size, Width.bytes, regionOf_regs.2 h]

/-- An 8-byte write in REGS is one of its register. -/
theorem storeValue_reg (s : State) {off : Offset} (v : Word) (hr : off.toNat ≤ 0x48) :
    storeValue { dir := .write, off := off, width := .w8, data := v } s = writeReg off.toNat v s := by
  have h : off.toNat + 8 ≤ 0x50 := by omega
  simp only [storeValue, Access.addr, Access.size, Width.bytes, regionOf_regs.2 h]

/-- A read of a register while FAULT = 0 returns its value and changes nothing, while BUSY = 1 if it is a diagnostic one. -/
theorem busAccess_readReg {s : State} {off : Offset} (d : Word) (hf : s.fault = false) (hr : off.toNat ≤ 0x48)
    (ha : off.toNat % 8 = 0) (hb : s.busy = true → diagnosticReg off.toNat = true) :
    busAccess { dir := .read, off := off, width := .w8, data := d } s =
      .next { s with rdata := readReg s off.toNat } := by
  rw [busAccess_read hf (accessCheck_readReg s d hr ha hb) rfl, readValue_reg s d hr]

/-- A read of a diagnostic register returns its value in every state and changes nothing (20_memory R56, 60_exceptions R131). -/
theorem busAccess_readDiagnostic (s : State) {off : Offset} (d : Word) (hd : diagnosticReg off.toNat = true) :
    busAccess { dir := .read, off := off, width := .w8, data := d } s =
      .next { s with rdata := readReg s off.toNat } := by
  by_cases hf : s.fault = true
  · rw [busAccess_of_fault _ hf, faultedAccess, if_pos ⟨rfl, hd⟩]
    rfl
  · have := (diagnosticReg_iff _).1 hd
    exact busAccess_readReg d (by simpa using hf) (by omega) (by omega) fun _ => hd

/-- A write of a writable register other than CTRL while FAULT = 0 stores its field, while BUSY = 1 if it is IRQEN and while
LOCKED = 1 if it is not IDXOFF. -/
theorem busAccess_writeReg {s : State} {off : Offset} (v : Word) (hf : s.fault = false) (hr : off.toNat ≤ 0x48)
    (ha : off.toNat % 8 = 0) (ho : readOnlyReg off.toNat = false) (hc : off.toNat ≠ offCtrl)
    (hb : s.busy = true → off.toNat = offIrqen) (hl : s.locked = true → off.toNat ≠ offIdxoff) :
    busAccess { dir := .write, off := off, width := .w8, data := v } s = .next (writeReg off.toNat v s) := by
  rw [busAccess_write hf (accessCheck_writeReg s v hr ha ho hb hl) rfl hc, storeValue_reg s v hr]

/-- A write of STATUS clears DONE on bit 1, and nothing else of it can be written (10_state R30). -/
theorem writeReg_status (v : Word) (s : State) : writeReg offStatus v s = { s with done := s.done && !v.getLsbD 1 } := by
  rw [writeReg, if_pos rfl]
  cases v.getLsbD 1 <;> simp

/-- Truncation to an index is the remainder modulo 2 to IDX_BITS (00_scope R12). -/
theorem truncIdx_eq_ofNat (c : Config) (v : Word) : truncIdx c v = BitVec.ofNat 64 (v.toNat % 2 ^ c.idxBits) := by
  apply BitVec.eq_of_toNat_eq
  simp [truncIdx]

/-- Settles O21: each of the ten offsets is aligned and in REGS, so the read returns what the register map holds there. -/
theorem registerReadsReturnTheirValues : Obligations.RegisterReadsReturnTheirValues := by
  intro s off v d rest ⟨hb, hf⟩ hs hm
  have hreg : off.toNat ≤ 0x48 ∧ off.toNat % 8 = 0 ∧ readReg s off.toNat = v := by
    simp only [List.mem_cons, Prod.mk.injEq, List.not_mem_nil, or_false] at hm
    rcases hm with ⟨rfl, rfl⟩ | ⟨rfl, rfl⟩ | ⟨rfl, rfl⟩ | ⟨rfl, rfl⟩ | ⟨rfl, rfl⟩ | ⟨rfl, rfl⟩ | ⟨rfl, rfl⟩ |
      ⟨rfl, rfl⟩ | ⟨rfl, rfl⟩ | ⟨rfl, rfl⟩ <;> exact ⟨by decide, by decide, rfl⟩
  obtain ⟨hr, ha, rfl⟩ := hreg
  exact (step_of_bus hs).trans (busAccess_readReg d hf hr ha (by simp [hb]))

/-- Settles O22: the five registers are diagnostic, and STATUS and PARAM are the sums of their fields. -/
theorem diagnosticReadsAlwaysWork : Obligations.DiagnosticReadsAlwaysWork := by
  intro s off n d rest hs hm
  have hreg : diagnosticReg off.toNat = true ∧ (readReg s off.toNat).toNat = n := by
    simp only [List.mem_cons, Prod.mk.injEq, List.not_mem_nil, or_false] at hm
    rcases hm with ⟨rfl, rfl⟩ | ⟨rfl, rfl⟩ | ⟨rfl, rfl⟩ | ⟨rfl, rfl⟩ | ⟨rfl, rfl⟩
    · exact ⟨by decide, rfl⟩
    · exact ⟨by decide, paramWord_toNat s.cfg⟩
    · exact ⟨by decide, statusWord_toNat s⟩
    · exact ⟨by decide, BitVec.toNat_setWidth_of_le (b := s.irqen) (w' := 64) (by decide)⟩
    · exact ⟨by decide, rfl⟩
  obtain ⟨hd, hn⟩ := hreg
  exact ⟨_, hn, (step_of_bus hs).trans (busAccess_readDiagnostic _ d hd)⟩

/-- Settles O24: each of the five offsets is a writable register's, whose write stores its field. -/
theorem registerWritesStoreTheirFields : Obligations.RegisterWritesStoreTheirFields := by
  intro s off v rest hf hs
  rw [step_of_bus hs]
  refine ⟨?_, ?_, ?_, ?_, ?_⟩
  · rintro rfl hb
    have hw := busAccess_writeReg (s := { s with sched := rest }) (off := 0x018) v hf (by decide) (by decide) (by decide)
      (by decide) (by simp [hb]) (fun _ => by decide)
    exact hw.trans (congrArg _ (writeReg_status v _))
  · rintro rfl
    rw [← BitVec.setWidth_eq_extractLsb' (by decide)]
    exact busAccess_writeReg v hf (by decide) (by decide) (by decide) (by decide) (fun _ => by decide) (fun _ => by decide)
  · rintro rfl hb
    exact busAccess_writeReg v hf (by decide) (by decide) (by decide) (by decide) (by simp [hb]) (fun _ => by decide)
  · rintro rfl hb
    exact busAccess_writeReg v hf (by decide) (by decide) (by decide) (by decide) (by simp [hb]) (fun _ => by decide)
  · rintro rfl hb hl
    rw [← Params.idxBits, ← truncIdx_eq_ofNat]
    exact busAccess_writeReg v hf (by decide) (by decide) (by decide) (by decide) (by simp [hb]) (by simp [hl])

/-- Settles O41: DONE and FAULT are bits 1 and 3 of STATUS. -/
theorem irqFollowsStatusAndEnables : Obligations.IrqFollowsStatusAndEnables := by
  constructor
  · intro s
    rw [statusWord_done, statusWord_fault]
    rfl
  · exact fun _ => rfl

end Sys2Proof.Machine

/-! ## The two steps of a command and the busy window (10_state R39, 30_encoding R73, 20_memory R61) -/

namespace Sys2Proof.Machine

/-- The engine's turn while a command is in flight is its meaning (10_state R39). -/
theorem engineTurn_eq_exec {s : State} {i : Instr} (hb : s.busy = true) (hl : latched s = some i) :
    engineTurn s = exec i s := by
  rw [engineTurn, if_pos hb, hl]

/-- Settles O5: the latches name the command that the engine's turn runs; with no turn listed a busy engine moves. -/
theorem engineStepRunsLatchedCommand : Obligations.EngineStepRunsLatchedCommand := by
  intro s i hb ho hw
  have hl : latched s = some i := latched_of_latches ho.symm hw.symm
  constructor
  · intro rest hs
    exact (step_of_sched hs).trans (engineTurn_eq_exec hb hl)
  · intro hs
    have hn : nextTurn s = (.engine, s.sched) := by simp [nextTurn, hs, hb]
    rw [step, stepTurn, hn]
    exact engineTurn_eq_exec hb hl

/-- The CTRL value of a command has its opcode and WSEL in their fields (30_encoding R67, R75). -/
theorem encodeWord_fields (i : Instr) :
    (encodeWord i).extractLsb' 0 4 = i.opc ∧ (encodeWord i).extractLsb' 4 2 = i.wsel := by
  cases i with
  | subkey wb => cases wb <;> decide
  | _ => decide

/-- Issuing an admitted command to an idle BCE is its acceptance (30_encoding R73). -/
theorem issue_of_admitted {i : Instr} {s : State} (h : s.idle) (ha : admitted i s.arg1 s) :
    issue i (commandCheck i) s = accept i s := by
  simp [issue, h.2, (commandCheck_eq_none i s).2 ha]

/-- Settles O7: an admitted command is accepted, and the fields of its CTRL value are the opcode and WSEL that are latched. -/
theorem admittedCommandIsAccepted : Obligations.AdmittedCommandIsAccepted := by
  intro i s h ha
  obtain ⟨hopc, hwsel⟩ := encodeWord_fields i
  rw [exec_of_not_busy i h.1, issue_of_admitted h ha, hopc, hwsel]
  rfl

/-- States with the same BCE: one is the other with some host, turns and value read last. -/
theorem eq_of_sameBce {s t : State} (h : sameBce s t) : ∃ p q v, t = { s with host := p, sched := q, rdata := v } :=
  ⟨_, _, _, h.symm⟩

/-- A write of IRQEN's offset that passes the checks stores IRQEN and nothing else (10_state R31). -/
theorem storeValue_irqen {s : State} {x : Access} (h : accessCheck s x = none) (ha : x.addr = offIrqen) :
    storeValue x s = { s with irqen := x.data.setWidth 2 } := by
  obtain ⟨_, r, hr, _⟩ := accessCheck_none h
  cases r with
  | regs => rw [storeValue, hr, ha]; rfl
  | recBuf => exact absurd (regionOf_recBuf hr).1 (by rw [ha]; decide)
  | key => exact absurd (regionOf_key hr).1 (by rw [ha]; decide)

/-- A returned value changes nothing but the value read last. -/
theorem returnRead_eq (x : Access) (v : Word) (s : State) :
    returnRead x v s = { s with rdata := if x.dir = .read then v else s.rdata } := by
  unfold returnRead
  split <;> rfl

/-- While BUSY = 1 a host access changes nothing but IRQEN, the fault record and the value read last (20_memory R56). -/
theorem busAccess_of_busy {x : Access} {s t : State} (h : busAccess x s = .next t) (hb : s.busy = true) :
    ∃ e f c w v, t = { s with irqen := e, fault := f, errcode := c, errinfo := w, rdata := v } := by
  rcases busAccess_cases h with ⟨_, rfl⟩ | ⟨f, hf, hc, _⟩ | ⟨hf, hc, hd, _⟩ | ⟨_, _, _, _, hn, _⟩ | ⟨_, hc, hd, _, rfl⟩
  · exact ⟨_, _, _, _, _, returnRead_eq x _ s⟩
  · rw [busAccess_of_fail hf hc] at h
    cases h
    exact ⟨_, _, _, _, _, rfl⟩
  · rw [busAccess_read hf hc hd] at h
    cases h
    exact ⟨_, _, _, _, _, rfl⟩
  · rw [hb] at hn; cases hn
  · exact ⟨_, _, _, _, _, storeValue_irqen hc (addr_of_busy_write hc hd hb)⟩

/-- Settles O42: of the turns left, the host's statements change nothing of the BCE but by an access, and an access while BUSY = 1
changes none of these. -/
theorem busyWindowFreezesTheOperands : Obligations.BusyWindowFreezesTheOperands := by
  intro s t hb he hr h
  rcases step_cases h with ⟨hn, _⟩ | ⟨_, hs⟩ | ⟨x, u, v, _, _, hu, hv, hs⟩ | ⟨i, hn, _⟩
  · exact absurd hn hr
  · obtain ⟨_, _, _, rfl⟩ := eq_of_sameBce hs
    exact ⟨hb, rfl, rfl, rfl, rfl, rfl, rfl, rfl, rfl, rfl, rfl, rfl, rfl⟩
  · obtain ⟨_, _, _, rfl⟩ := eq_of_sameBce hu
    obtain ⟨_, _, _, _, _, rfl⟩ := busAccess_of_busy hv hb
    obtain ⟨_, _, _, rfl⟩ := eq_of_sameBce hs
    exact ⟨hb, rfl, rfl, rfl, rfl, rfl, rfl, rfl, rfl, rfl, rfl, rfl, rfl⟩
  · exact absurd hn he

end Sys2Proof.Machine

/-! ## The cipher (41_index_hash R93, 42_cipher R111) -/

namespace Sys2Proof.Machine

/-- The index hash tells IDX_BITS-bit values apart: each of their bytes goes through a table without repeats. -/
theorem hashIndex_injective {c : Config} {x y : Word} (hx : truncIdx c x = x) (hy : truncIdx c y = y)
    (h : hashIndex c x = hashIndex c y) : x = y := by
  apply word_ext
  intro k _
  rw [← hx, ← hy, truncIdx_extract, truncIdx_extract]
  split
  · next hk =>
    apply substitute_injective c.sbox_nodup
    rw [← hashIndex_extract c x hk, ← hashIndex_extract c y hk, h]
  · rfl

/-- The index hash as a function on the IDX_BITS-bit values. -/
def hashOnIndices (c : Config) (x : { x : Word // truncIdx c x = x }) : { x : Word // truncIdx c x = x } :=
  ⟨hashIndex c x.1, truncIdx_hashIndex c x.1⟩

/-- Settles O51: the hash is injective on the IDX_BITS-bit values, and so, these being finitely many, onto them. -/
theorem indexHashIsABijection : Obligations.IndexHashIsABijection := by
  intro c
  refine ⟨fun x y hx hy h => hashIndex_injective hx hy h, fun y hy => ?_⟩
  have hinj : Function.Injective (hashOnIndices c) := fun a b hab =>
    Subtype.ext (hashIndex_injective a.2 b.2 (congrArg Subtype.val hab))
  obtain ⟨x, hx⟩ := Finite.surjective_of_injective hinj ⟨y, hy⟩
  exact ⟨x.1, x.2, congrArg Subtype.val hx⟩

/-- The window that a command selects rests on the configuration, IDXOFF and the record (42_cipher R111). -/
theorem blockStart_congr (i : Instr) (o : Word) {s t : State} (hc : s.cfg = t.cfg) (ho : s.idxoff = t.idxoff)
    (hr : s.recBuf = t.recBuf) : blockStart i o s = blockStart i o t := by
  cases i <;> simp only [blockStart, cipherStart, recordIndex, hc, ho, hr]

/-- A block command selects a window. -/
theorem exists_blockStart {i : Instr} (h : i = .xorwin ∨ i = .cipher ∨ i = .cipherRec) (o : Word) (s : State) :
    ∃ n, blockStart i o s = some n := by
  rcases h with rfl | rfl | rfl <;> exact ⟨_, rfl⟩

/-- Settles O58: both states select the same window for their latched operand, and XOR the same key bytes into the same record. -/
theorem transformsKeepNoHistory : Obligations.TransformsKeepNoHistory := by
  intro i s t s' hi hs ht hcfg hkey hoff hop hrec h
  obtain ⟨n, hn⟩ := exists_blockStart hi s.a0L s
  have hn' : blockStart i t.a0L t = some n := by rw [← hop, ← blockStart_congr i s.a0L hcfg hoff hrec, hn]
  rw [exec_of_busy i hs] at h
  cases h
  refine ⟨_, exec_of_busy i ht, ?_⟩
  rw [complete_recBuf, complete_recBuf, commandEffect_of_blockStart hn, commandEffect_of_blockStart hn',
    xorPayload_recBuf, xorPayload_recBuf, hcfg, hkey, hrec]

end Sys2Proof.Machine

/-! ## The checks of an access, in their order (20_memory R51 to R56) -/

namespace Sys2Proof.Machine

/-- A step whose access fails a check leaves its record and nothing else (60_exceptions R123). -/
theorem step_of_failed_access {s : State} {x : Access} {rest : List Turn} {f : FaultCode} (hf : s.fault = false)
    (hs : s.sched = .bus x :: rest) (hc : accessCheck { s with sched := rest } x = some f) :
    step s = .next (recorded x f.code { s with sched := rest }) :=
  (step_of_bus hs).trans (busAccess_of_fail hf hc)

/-- Bytes that do not lie wholly inside one of the three regions are in no region (20_memory R50, R51). -/
theorem regionOf_eq_none {c : Config} {a n : Nat} (h1 : ¬ a + n ≤ 0x50)
    (h2 : ¬ (recBase ≤ a ∧ a + n ≤ recBase + c.recBytes)) (h3 : ¬ (keyBase ≤ a ∧ a + n ≤ keyBase + c.keyBytes)) :
    regionOf c a n = none := by
  rw [regionOf, if_neg h1, if_neg h2, if_neg h3]

/-- Natural alignment is the first check (20_memory R55). -/
theorem accessCheck_misaligned (s : State) {x : Access} (h : x.addr % x.size ≠ 0) :
    accessCheck s x = some .misaligned := if_pos h

/-- An aligned access outside the regions fails the check of the address map (20_memory R51). -/
theorem accessCheck_unmapped {s : State} {x : Access} (ha : x.addr % x.size = 0)
    (hr : regionOf s.cfg x.addr x.size = none) : accessCheck s x = some .badAccess := by
  simp only [accessCheck, ha, hr, ne_eq, not_true, if_false]

/-- An aligned access in REGS that is not 8 bytes wide fails the check of the width (20_memory R53). -/
theorem accessCheck_narrowRegister {s : State} {x : Access} (ha : x.addr % x.size = 0) (hr : x.addr + x.size ≤ 0x50)
    (hn : x.size ≠ 8) : accessCheck s x = some .badAccess := by
  simp [accessCheck, ha, regionOf_regs.2 hr, hn]

/-- An 8-byte write of a read-only register fails the check of the direction, which comes before BUSY's (20_memory R53, R56). -/
theorem accessCheck_readOnly (s : State) {off : Offset} (v : Word) (h : readOnlyReg off.toNat = true) :
    accessCheck s { dir := .write, off := off, width := .w8, data := v } = some .badAccess := by
  have ho := (readOnlyReg_iff _).1 h
  have ha : off.toNat % 8 = 0 := by omega
  have hr : off.toNat + 8 ≤ 0x50 := by omega
  simp [accessCheck, Access.addr, Access.size, Width.bytes, ha, regionOf_regs.2 hr, h]

/-- Settles O30: alignment is the first check. -/
theorem misalignedAccessRaisesMisaligned : Obligations.MisalignedAccessRaisesMisaligned :=
  fun _ _ _ hf hs ha => step_of_failed_access hf hs (accessCheck_misaligned _ ha)

/-- Settles O25: the four offsets are the read-only registers'. -/
theorem readOnlyRegisterWriteRaisesBadAccess : Obligations.ReadOnlyRegisterWriteRaisesBadAccess := by
  intro s off v rest hf ho hs
  have hro : readOnlyReg off.toNat = true := by rcases ho with rfl | rfl | rfl | rfl <;> decide
  exact step_of_failed_access hf hs (accessCheck_readOnly _ v hro)

/-- Settles O31: the first case is in no region, the second in REGS and narrower than a register. -/
theorem unmappedAccessRaisesBadAccess : Obligations.UnmappedAccessRaisesBadAccess := by
  intro s x rest hf hs ha h
  refine step_of_failed_access (f := .badAccess) hf hs ?_
  rcases h with ⟨hregs, hrec, hkey⟩ | ⟨hregs, hn⟩
  · exact accessCheck_unmapped ha (regionOf_eq_none hregs hrec hkey)
  · exact accessCheck_narrowRegister ha hregs hn

end Sys2Proof.Machine

/-! ## Accesses to REC and KEY (20_memory R48, R52, R54) -/

namespace Sys2Proof.Machine

/-- Byte `k` of the word of a run of bytes is byte `k` of the run, and 0 past its end. -/
theorem le_read_extract (m : Memory) (a n : Nat) {k : Nat} (hk : k < 8) :
    (le (m.read a n)).extractLsb' (8 * k) 8 = if k < n then m.get (a + k) else 0 := by
  rw [le_extract _ _ hk]
  split
  · next h => rw [List.getD_eq_getElem _ _ (by simpa using h), Memory.read_getElem]
  · next h => rw [List.getD_eq_default _ _ (by simpa using h)]

/-- The array that begins at offset `base` of the window, after the low `size` bytes of `v` are stored at offset `addr`, byte by
byte (20_memory R48). -/
theorem Memory.get_write_bytesOf {n base addr size : Nat} {m : Memory} (hw : m.wf n = true) (hb : base ≤ addr)
    (hn : addr + size ≤ base + n) (v : Word) (j : Nat) :
    (m.write (addr - base) (bytesOf size v)).get j =
      if addr ≤ base + j ∧ base + j < addr + size then v.extractLsb' (8 * (base + j - addr)) 8 else m.get j := by
  split
  · next hj =>
    obtain ⟨k, rfl⟩ : ∃ k, j = addr - base + k := ⟨base + j - addr, by omega⟩
    rw [Memory.get_write_in hw (by rw [bytesOf_length]; omega) (by rw [bytesOf_length]; omega), bytesOf_getElem]
    congr 2
    omega
  · next hj => exact Memory.get_write_out m (by rw [bytesOf_length]; omega)

/-- Storing bytes inside that array keeps it canonical. -/
theorem Memory.wf_write_bytesOf {n base addr size : Nat} {m : Memory} (hw : m.wf n = true) (hb : base ≤ addr)
    (hn : addr + size ≤ base + n) (v : Word) : (m.write (addr - base) (bytesOf size v)).wf n = true :=
  Memory.wf_write hw (by rw [bytesOf_length]; omega)

/-- A step whose access is a read inside REC or KEY while the BCE is idle returns its value and changes nothing. -/
theorem step_of_memory_read {s : State} {x : Access} {rest : List Turn} {r : Region} (h : s.idle)
    (hs : s.sched = .bus x :: rest) (hd : x.dir = .read) (ha : x.addr % x.size = 0) (hge : 0x1000 ≤ x.addr)
    (hr : regionOf s.cfg x.addr x.size = some r) (hr' : r ≠ .regs) :
    step s = .next { s with sched := rest, rdata := readValue { s with sched := rest } x } :=
  (step_of_bus hs).trans (busAccess_read h.2 (accessCheck_memory h.1 ha hr hr' hge (.inl hd)) hd)

/-- A step whose access is a write inside REC or KEY while the BCE is idle stores its value, into KEY while LOCKED = 0. -/
theorem step_of_memory_write {s : State} {x : Access} {rest : List Turn} {r : Region} (h : s.idle)
    (hs : s.sched = .bus x :: rest) (hd : x.dir = .write) (ha : x.addr % x.size = 0) (hge : 0x1000 ≤ x.addr)
    (hr : regionOf s.cfg x.addr x.size = some r) (hr' : r ≠ .regs) (hl : s.locked = false ∨ r = .recBuf) :
    step s = .next (storeValue x { s with sched := rest }) := by
  have hctrl : x.addr ≠ offCtrl := by simp only [offCtrl]; omega
  exact (step_of_bus hs).trans (busAccess_write h.2 (accessCheck_memory h.1 ha hr hr' hge (.inr hl)) hd hctrl)

/-- Settles O23: the access passes the checks in either lock state, and a read of KEY has the value 0. -/
theorem keyReadsReturnZero : Obligations.KeyReadsReturnZero := by
  intro s x rest hi hs hd ha hlo hhi
  have hr := regionOf_eq_key hlo x.size_pos hhi
  have hv : readValue { s with sched := rest } x = 0 := by rw [readValue, hr]
  rw [step_of_memory_read hi hs hd ha (by omega) hr (by decide), hv]

/-- Settles O27: a read of REC has the value of the word of its bytes. -/
theorem recordReadReturnsItsBytes : Obligations.RecordReadReturnsItsBytes := by
  intro s x rest hi hs hd ha hlo hhi
  have hr := regionOf_eq_recBuf hlo hhi
  have hv : readValue { s with sched := rest } x = le (s.recBuf.read (x.addr - recBase) x.size) := by rw [readValue, hr]
  refine ⟨_, step_of_memory_read hi hs hd ha hlo hr (by decide), fun k hk => ?_⟩
  rw [hv, le_read_extract _ _ _ hk]

/-- Settles O26: a write of REC stores the bytes of its value from its place in REC on. -/
theorem recordWriteStoresItsBytes : Obligations.RecordWriteStoresItsBytes := by
  intro s x rest hinv hi hs hd ha hlo hhi
  have hr := regionOf_eq_recBuf hlo hhi
  have hv : storeValue x { s with sched := rest } =
      { s with sched := rest, recBuf := s.recBuf.write (x.addr - recBase) (bytesOf x.size x.data) } := by
    rw [storeValue, hr]
  refine ⟨_, (step_of_memory_write hi hs hd ha hlo hr (by decide) (.inr rfl)).trans (congrArg _ hv), ?_⟩
  exact ⟨Memory.wf_write_bytesOf hinv.recForm hlo hhi x.data, Memory.get_write_bytesOf hinv.recForm hlo hhi x.data⟩

/-- Settles O28: a write of KEY before LOCK stores the bytes of its value from its place in KEY on. -/
theorem unlockedKeyWriteStoresItsBytes : Obligations.UnlockedKeyWriteStoresItsBytes := by
  intro s x rest hinv hi hl hs hd ha hlo hhi
  have hr := regionOf_eq_key hlo x.size_pos hhi
  have hv : storeValue x { s with sched := rest } =
      { s with sched := rest, keyStore := s.keyStore.write (x.addr - keyBase) (bytesOf x.size x.data) } := by
    rw [storeValue, hr]
  refine ⟨_, (step_of_memory_write hi hs hd ha (by omega) hr (by decide) (.inl hl)).trans (congrArg _ hv), ?_⟩
  exact ⟨Memory.wf_write_bytesOf hinv.keyForm hlo hhi x.data, Memory.get_write_bytesOf hinv.keyForm hlo hhi x.data⟩

end Sys2Proof.Machine

/-! ## The completions of the block commands (42_cipher R100 to R104) -/

namespace Sys2Proof.Machine

/-- A block command in flight completes by XORing the window that it selects into the payload, and by nothing else. -/
theorem exec_xorsWindow {i : Instr} {s : State} {start : Nat} (h : s.Inv) (hb : s.busy = true)
    (hs : blockStart i s.a0L s = some start) : ∃ t, exec i s = .next t ∧ xorsWindow start s t := by
  refine ⟨_, exec_of_busy i hb, ?_⟩
  rw [complete, commandEffect_of_blockStart hs]
  exact ⟨_, rfl, xorBlock_wf _ _ _ h.recForm, xorBlock_get _ _ _ h.recForm⟩

/-- Settles O17: XORWIN selects the window at A0_L. -/
theorem xorwinCompletesByXoringWindow : Obligations.XorwinCompletesByXoringWindow :=
  fun _ h hb => exec_xorsWindow (i := .xorwin) h hb rfl

/-- Settles O19: CIPHER_REC selects the window of the word of the record's index bytes. -/
theorem cipherRecCompletesByXoringHashedWindow : Obligations.CipherRecCompletesByXoringHashedWindow := by
  intro s h hb
  obtain ⟨t, ht, hx⟩ := exec_xorsWindow (i := .cipherRec) h hb rfl
  refine ⟨t, recordIndex s, ht, fun k hk => ?_, hx⟩
  rw [recordIndex, le_read_extract _ _ _ hk, Nat.zero_add]

/-- A payload word ends inside REC (10_state R37). -/
theorem payloadAt_add_le (c : Config) {i : Nat} (hi : i < c.blockWords) : payloadAt c i + c.wBytes ≤ c.recBytes := by
  have hw : (i + 1) * c.wBytes ≤ c.blockWords * c.wBytes := Nat.mul_le_mul_right _ hi
  rw [c.recBytes_eq, payloadAt]
  rw [Nat.succ_mul] at hw
  omega

/-- `xor_block` word by word: byte `k` of payload word `i` takes in byte `k` of key word `start + i` (42_cipher R101). -/
theorem payloadWord_xorBlock (c : Config) (key : Memory) (start : Nat) {rec : Memory} (hw : rec.wf c.recBytes = true)
    {i : Nat} (hi : i < c.blockWords) :
    payloadWord c (xorBlock c key start rec) i = payloadWord c rec i ^^^ keyWord key c.wBytes (start + i) := by
  apply word_ext
  intro k hk
  rw [BitVec.extractLsb'_xor, payloadWord, payloadWord, keyWord, le_read_extract _ _ _ hk, le_read_extract _ _ _ hk,
    le_read_extract _ _ _ hk]
  by_cases hkw : k < c.wBytes
  · have hend := payloadAt_add_le c hi
    have hin : c.idxBytes ≤ payloadAt c i + k ∧ payloadAt c i + k < c.recBytes := by
      constructor
      · rw [payloadAt]; omega
      · omega
    have hkey : start * c.wBytes + (payloadAt c i + k - c.idxBytes) = (start + i) * c.wBytes + k := by
      rw [payloadAt, Nat.add_mul]; omega
    simp only [hkw, if_true]
    rw [xorBlock_get c key start hw, if_pos hin, hkey]
  · simp [hkw]

/-- Settles O20: XORWIN's effect is `xor_block` at the window of A0_L. -/
theorem xorwinFollowsTheWordRule : Obligations.XorwinFollowsTheWordRule := by
  intro s t i h hb hi ht
  rw [exec_of_busy .xorwin hb] at ht
  cases ht
  exact payloadWord_xorBlock s.cfg s.keyStore (selectStart s.cfg s.a0L) h.recForm hi

/-- The record's index is IDX_BITS wide (42_cipher R104). -/
theorem truncIdx_recordIndex (s : State) : truncIdx s.cfg (recordIndex s) = recordIndex s := by
  apply word_ext
  intro k hk
  rw [truncIdx_extract, recordIndex, le_read_extract _ _ _ hk]
  split <;> rfl

/-- Settles O56: both commands are admitted while LOCKED = 1, and truncation leaves the index that CIPHER latches as the record
carries it, so both select the same window. -/
theorem cipherRecIsCipherAtTheRecordIndex : Obligations.CipherRecIsCipherAtTheRecordIndex := by
  intro s h hl
  refine ⟨_, _, issueAndComplete_of_admitted (i := .cipherRec) h hl,
    issueAndComplete_of_admitted (i := .cipher) (s := { s with arg0 := recordIndex s }) h hl, ?_⟩
  have hstart : cipherStart s (truncIdx s.cfg (recordIndex s)) = cipherStart s (recordIndex s) := by
    rw [truncIdx_recordIndex]
  exact congrArg (fun n => xorBlock s.cfg s.keyStore n s.recBuf) hstart.symm

end Sys2Proof.Machine

/-! ## What a turn does depends on the BCE alone (20_memory R60, 30_encoding R82) -/

namespace Sys2Proof.Machine

/-- The state with other agents around the same BCE. -/
def withAgents (p : HostSide) (q : List Turn) (v : Word) (s : State) : State :=
  { s with host := p, sched := q, rdata := v }

/-- States have the same BCE when one is the other with some agents put in. -/
theorem eq_withAgents {s t : State} (h : sameBce s t) : ∃ p q v, t = withAgents p q v s := eq_of_sameBce h

theorem raise_sameBce (f : FaultCode) (info : Word) {s t : State} (h : sameBce s t) :
    sameBce (raise f info s) (raise f info t) := by
  obtain ⟨p, q, v, rfl⟩ := eq_withAgents h
  cases hf : s.fault with
  | true => rwa [raise_of_fault f info hf, raise_of_fault f info (s := withAgents p q v s) hf]
  | false => rw [raise_of_ok f info hf, raise_of_ok f info (s := withAgents p q v s) hf]; rfl

/-- Returning a value to the host does no step of the BCE, on either side. -/
theorem returnRead_sameBce (x : Access) (v : Word) {s t : State} (h : sameBce s t) :
    sameBce (returnRead x v s) (returnRead x v t) :=
  sameBce_trans (sameBce_symm (sameBce_returnRead x v s)) (sameBce_trans h (sameBce_returnRead x v t))

/-- The checks of a command and its acceptance look at the BCE alone. -/
theorem issue_sameBce (i : Instr) {s t : State} (h : sameBce s t) :
    sameBce (issue i (commandCheck i) s) (issue i (commandCheck i) t) := by
  obtain ⟨p, q, v, rfl⟩ := eq_withAgents h
  have hf : (withAgents p q v s).fault = s.fault := rfl
  have hc : commandCheck i (withAgents p q v s) = commandCheck i s := by cases i <;> rfl
  simp only [issue, hf, hc]
  cases s.fault with
  | true => exact h
  | false =>
    cases commandCheck i s with
    | none => rfl
    | some f => exact raise_sameBce f _ h

theorem writeReg_sameBce (a : Nat) (w : Word) {s t : State} (h : sameBce s t) :
    sameBce (writeReg a w s) (writeReg a w t) := by
  obtain ⟨p, q, v, rfl⟩ := eq_withAgents h
  unfold writeReg
  split_ifs <;> rfl

theorem storeValue_sameBce (x : Access) {s t : State} (h : sameBce s t) :
    sameBce (storeValue x s) (storeValue x t) := by
  simp only [storeValue, sameBce_cfg h]
  cases regionOf s.cfg x.addr x.size with
  | none => exact h
  | some r =>
    cases r with
    | regs => exact writeReg_sameBce x.addr x.data h
    | recBuf => obtain ⟨p, q, v, rfl⟩ := eq_withAgents h; rfl
    | key => obtain ⟨p, q, v, rfl⟩ := eq_withAgents h; rfl

/-- The completion of a command looks at the BCE alone. -/
theorem complete_sameBce (i : Instr) {s t : State} (h : sameBce s t) :
    sameBce (complete (commandEffect i) s) (complete (commandEffect i) t) := by
  obtain ⟨p, q, v, rfl⟩ := eq_withAgents h
  cases i <;> rfl

/-- A CTRL write that finds the engine idle drives the same BCE alike. -/
theorem ctrlWrite_sameBce {w : Word} {s t s' : State} (h : sameBce s t) (hb : s.busy = false)
    (hs : ctrlWrite w s = .next s') : ∃ t', ctrlWrite w t = .next t' ∧ sameBce s' t' := by
  have hbt : t.busy = false := by obtain ⟨p, q, v, rfl⟩ := eq_withAgents h; exact hb
  unfold ctrlWrite at hs ⊢
  cases hw : decodeWord w with
  | error e => rw [hw] at hs; cases hs; exact ⟨_, rfl, raise_sameBce _ _ h⟩
  | ok i =>
    simp only [hw, exec_of_not_busy i hb] at hs
    cases hs
    exact ⟨_, exec_of_not_busy i hbt, issue_sameBce i h⟩

/-- A host access drives the same BCE alike and reads the same value. -/
theorem busAccess_sameBce {x : Access} {s t s' : State} (h : sameBce s t) (hs : busAccess x s = .next s') :
    ∃ t', busAccess x t = .next t' ∧ sameBce s' t' ∧ (x.dir = .read → s'.rdata = t'.rdata) := by
  obtain ⟨p, q, v, rfl⟩ := eq_withAgents h
  cases hf : s.fault with
  | true =>
    rw [busAccess_of_fault x hf] at hs
    cases hs
    refine ⟨_, busAccess_of_fault x hf, returnRead_sameBce x _ h, fun hd => ?_⟩
    rw [faultedAccess, faultedAccess, returnRead_eq, returnRead_eq, if_pos hd, if_pos hd]
    rfl
  | false =>
    cases hc : accessCheck s x with
    | some f =>
      rw [busAccess_of_fail hf hc] at hs
      cases hs
      exact ⟨_, busAccess_of_fail hf hc, rfl, fun hd => by rw [recorded, recorded, if_pos hd, if_pos hd]⟩
    | none =>
      cases hd : x.dir with
      | read =>
        rw [busAccess_read hf hc hd] at hs
        cases hs
        exact ⟨_, busAccess_read hf hc hd, rfl, fun _ => rfl⟩
      | write =>
        by_cases ha : x.addr = offCtrl
        · rw [busAccess_ctrl hf hc hd ha] at hs
          obtain ⟨t', ht, hst⟩ := ctrlWrite_sameBce h (not_busy_of_ctrl hc hd ha) hs
          exact ⟨t', (busAccess_ctrl (s := withAgents p q v s) hf hc hd ha).trans ht, hst, nofun⟩
        · rw [busAccess_write hf hc hd ha] at hs
          cases hs
          exact ⟨_, busAccess_write hf hc hd ha, storeValue_sameBce x h, nofun⟩

/-- The engine's turn drives the same BCE alike. -/
theorem engineTurn_sameBce {s t s' : State} (h : sameBce s t) (hs : engineTurn s = .next s') :
    ∃ t', engineTurn t = .next t' ∧ sameBce s' t' := by
  obtain ⟨p, q, v, rfl⟩ := eq_withAgents h
  rcases engineTurn_cases hs with ⟨hb, rfl⟩ | ⟨i, hb, hl, rfl⟩
  · exact ⟨_, by simp [engineTurn, withAgents, hb], h⟩
  · exact ⟨_, engineTurn_of_latched hb hl, complete_sameBce i h⟩

/-- Settles O46: by the cases of an access and of the engine's turn. -/
theorem sameTransactionDrivesTheBceAlike : Obligations.SameTransactionDrivesTheBceAlike :=
  fun _ _ h => ⟨fun _ _ => busAccess_sameBce h, fun _ => engineTurn_sameBce h⟩

end Sys2Proof.Machine

/-! ## A command in flight completes (20_memory R61, 70_reset_and_hazards R159, R160) -/

namespace Sys2Proof.Machine

/-- The states hold the same command with the same operands, lock and buffers: they differ at most in what a host access can change
while BUSY = 1 (20_memory R56), and in the host and its turns. -/
def sameCommand (s t : State) : Prop :=
  ∃ e f c w v p q,
    t = { s with irqen := e, fault := f, errcode := c, errinfo := w, rdata := v, host := p, sched := q }

theorem sameCommand_sched (q : List Turn) (s : State) : sameCommand s { s with sched := q } := ⟨_, _, _, _, _, _, _, rfl⟩

theorem sameCommand_trans {s t u : State} (h : sameCommand s t) (h' : sameCommand t u) : sameCommand s u := by
  obtain ⟨_, _, _, _, _, _, _, rfl⟩ := h
  obtain ⟨_, _, _, _, _, _, _, rfl⟩ := h'
  exact ⟨_, _, _, _, _, _, _, rfl⟩

theorem sameCommand_of_sameBce {s t : State} (h : sameBce s t) : sameCommand s t := by
  obtain ⟨_, _, _, rfl⟩ := eq_withAgents h
  exact ⟨_, _, _, _, _, _, _, rfl⟩

theorem sameCommand_busy {s t : State} (h : sameCommand s t) : t.busy = s.busy := by
  obtain ⟨_, _, _, _, _, _, _, rfl⟩ := h
  rfl

theorem sameCommand_latched {s t : State} (h : sameCommand s t) : latched t = latched s := by
  obtain ⟨_, _, _, _, _, _, _, rfl⟩ := h
  rfl

/-- A command completes alike on states that hold it alike: no effect reads or writes the rest of the state. -/
theorem complete_sameCommand (i : Instr) {s t : State} (h : sameCommand s t) :
    sameCommand (complete (commandEffect i) s) (complete (commandEffect i) t) := by
  obtain ⟨e, f, c, w, v, p, q, rfl⟩ := h
  refine ⟨e, f, c, w, v, p, q, ?_⟩
  cases i <;> rfl

/-- While BUSY = 1, no turn but the engine's and reset touches the command (20_memory R61). -/
theorem step_sameCommand {s t : State} (hb : s.busy = true) (he : (nextTurn s).1 ≠ .engine)
    (hr : (nextTurn s).1 ≠ .reset) (h : step s = .next t) : sameCommand s t := by
  rcases step_cases h with ⟨hn, _⟩ | ⟨_, hs⟩ | ⟨x, u, v, _, _, hu, hv, hs⟩ | ⟨i, hn, _⟩
  · exact absurd hn hr
  · exact sameCommand_of_sameBce hs
  · have hub : u.busy = true := (sameCommand_busy (sameCommand_of_sameBce hu)).trans hb
    obtain ⟨e, f, c, w, y, hv⟩ := busAccess_of_busy hv hub
    have huv : sameCommand u v := ⟨e, f, c, w, y, u.host, u.sched, hv⟩
    exact sameCommand_trans (sameCommand_of_sameBce hu) (sameCommand_trans huv (sameCommand_of_sameBce hs))
  · exact absurd hn he

/-- A step takes one turn off the list, and no turn changes those after it. -/
theorem step_sched {s t : State} (h : step s = .next t) : t.sched = (nextTurn s).2 := by
  unfold step stepTurn at h
  cases hn : (nextTurn s).1 with
  | reset => rw [hn] at h; cases h; rfl
  | bus x => rw [hn] at h; exact busAccess_sched h
  | engine =>
    rw [hn] at h
    rcases engineTurn_cases h with ⟨_, rfl⟩ | ⟨i, _, _, rfl⟩
    · rfl
    · simp
  | host =>
    rw [hn] at h
    simp only [takeTurn, hostTurn] at h
    split at h
    · exact execStmt_sched h
    · cases h; rfl

/-- The engine's turn completes the command in flight. -/
theorem step_of_engine {s : State} {i : Instr} {q : List Turn} (hb : s.busy = true) (hl : latched s = some i)
    (hn : nextTurn s = (.engine, q)) : step s = .next (complete (commandEffect i) { s with sched := q }) := by
  rw [step, stepTurn, hn]
  exact engineTurn_of_latched hb hl

/-- A run goes on from the state that its first step answers. -/
theorem run_succ {s t : State} (h : step s = .next t) (k : Nat) : core.run (k + 1) s = core.run k t := by
  have h' : core.step s = .next t := h
  simp only [Host.Core.run, h']

/-- When the next turn is the engine's, one step completes the command in flight. -/
theorem run_one_of_engine {s : State} {i : Instr} {q : List Turn} (hb : s.busy = true) (hl : latched s = some i)
    (hn : nextTurn s = (.engine, q)) : ∃ t, core.run 1 s = .next t ∧ sameCommand (complete (commandEffect i) s) t :=
  ⟨_, run_succ (step_of_engine hb hl hn) 0, complete_sameCommand i (sameCommand_sched q s)⟩

/-- A command in flight, with no reset among the turns listed, is completed by the first turn of the engine: one that is listed, or
the one that comes when none is left. The turns before it leave the command as it is. -/
theorem run_completes {s : State} {i : Instr} (hb : s.busy = true) (hl : latched s = some i)
    (hr : Turn.reset ∉ s.sched) :
    ∃ k t, k ≤ s.sched.length + 1 ∧ core.run k s = .next t ∧ sameCommand (complete (commandEffect i) s) t := by
  induction hs : s.sched generalizing s with
  | nil =>
    obtain ⟨t, ht, hst⟩ := run_one_of_engine hb hl (q := []) (by simp [nextTurn, hs, hb])
    exact ⟨1, t, Nat.le_refl 1, ht, hst⟩
  | cons u rest ih =>
    have hn := nextTurn_cons hs
    by_cases hu : u = .engine
    · subst hu
      obtain ⟨t, ht, hst⟩ := run_one_of_engine hb hl hn
      exact ⟨1, t, Nat.le_add_left _ _, ht, hst⟩
    · rw [hs, List.mem_cons, not_or] at hr
      obtain ⟨hur, hrest⟩ := hr
      obtain ⟨s₁, h₁⟩ := takeTurn_next hu { s with sched := rest }
      have hstep : step s = .next s₁ := (step_of_sched hs).trans h₁
      have hsame : sameCommand s s₁ := step_sameCommand hb (by rwa [hn]) (by rw [hn]; exact Ne.symm hur) hstep
      have hq : s₁.sched = rest := by rw [step_sched hstep, hn]
      have hb₁ : s₁.busy = true := (sameCommand_busy hsame).trans hb
      have hl₁ : latched s₁ = some i := (sameCommand_latched hsame).trans hl
      obtain ⟨k, t, hk, ht, hst⟩ := ih hb₁ hl₁ (by rwa [hq]) hq
      exact ⟨k + 1, t, Nat.succ_le_succ hk, (run_succ hstep k).trans ht,
        sameCommand_trans (complete_sameCommand i hsame) hst⟩

/-- Settles O43: the run completes the command beside what the host has done, which is no part of its effect. -/
theorem acceptedCommandCompletesWithItsEffect : Obligations.AcceptedCommandCompletesWithItsEffect := by
  intro s u i _ hb hl hr hu
  rw [exec_of_busy i hb] at hu
  cases hu
  obtain ⟨k, t, hk, ht, _, _, _, _, _, _, _, rfl⟩ := run_completes hb hl hr
  exact ⟨k, _, hk, ht, rfl, rfl, rfl, rfl, rfl, rfl, rfl⟩

end Sys2Proof.Machine

/-! ## The decoder and the encoder (30_encoding R67 to R70, R75, R76) -/

namespace Sys2Proof

/-- A command's CTRL value decodes to it (30_encoding R75). -/
theorem decodeWord_encodeWord (i : Instr) : decodeWord (encodeWord i) = .ok i :=
  match i with
  | .nop => Laws.RoundTrip.nop
  | .lock => Laws.RoundTrip.lock
  | .hash => Laws.RoundTrip.hash
  | .subkey wb => Laws.RoundTrip.subkey wb
  | .xorwin => Laws.RoundTrip.xorwin
  | .cipher => Laws.RoundTrip.cipher
  | .cipherRec => Laws.RoundTrip.cipherRec

/-- The three fields are the whole of a CTRL value (30_encoding R67). -/
theorem append_fields (v : Word) : (rsvField v ++ wselField v ++ opcField v : BitVec (58 + 2 + 4)) = v := by
  unfold rsvField wselField opcField
  rw [BitVec.extractLsb'_append_extractLsb'_eq_extractLsb', BitVec.extractLsb'_append_extractLsb'_eq_extractLsb']
  · exact BitVec.extractLsb'_eq_self
  · rfl
  · rfl

/-- The window word size that a WSEL selects is selected by that WSEL alone (30_encoding R67). -/
theorem wselOfWidth_widthOfWsel (ws : BitVec 2) : wselOfWidth (widthOfWsel ws) = ws := by decide +revert

/-- A row of the opcode map gives the command with its opcode, and with its WSEL unless WSEL is nonzero outside SUBKEY
(30_encoding R69, R71). -/
theorem fields_of_commandOf {opc : BitVec 4} {ws : BitVec 2} {i : Instr} (h : commandOf opc ws = some i)
    (hw : opc = 0x3 ∨ ws = 0) : opc = i.opc ∧ ws = i.wsel := by
  unfold commandOf at h
  have zero (hne : opc ≠ 0x3) : ws = 0 := hw.resolve_left hne
  split_ifs at h with h0 h1 h2 h3 h4 h5 h6 <;> cases h
  · exact ⟨h0, zero (h0 ▸ by decide)⟩
  · exact ⟨h1, zero (h1 ▸ by decide)⟩
  · exact ⟨h2, zero (h2 ▸ by decide)⟩
  · exact ⟨h3, (wselOfWidth_widthOfWsel ws).symm⟩
  · exact ⟨h4, zero (h4 ▸ by decide)⟩
  · exact ⟨h5, zero (h5 ▸ by decide)⟩
  · exact ⟨h6, zero (h6 ▸ by decide)⟩

/-- A CTRL value that decodes to a command is that command's value (30_encoding R75, R76). -/
theorem encodeWord_of_decodeWord {v : Word} {i : Instr} (h : decodeWord v = .ok i) : encodeWord i = v := by
  obtain ⟨hrsv, hcmd, hwsel⟩ := decodeWord_ok h
  obtain ⟨ho, hw⟩ := fields_of_commandOf hcmd hwsel
  calc encodeWord i = (rsvField v ++ wselField v ++ opcField v : BitVec (58 + 2 + 4)) := by
        rw [hrsv, hw, ho]; rfl
    _ = v := append_fields v

/-- The decoder reads a command from its eight bytes and leaves the bytes after them (30_encoding R68). -/
theorem decode_ctrlBytes_append {v : Word} {i : Instr} (h : decodeWord v = .ok i) (rest : List Byte) :
    decode (ctrlBytes v ++ rest) = .ok (i, rest) := by
  simp only [ctrlBytes, List.cons_append, List.nil_append, decode, ctrlBytes_append, h]

/-- Settles O1: the decoder and the encoder undo each other. -/
theorem ctrlValueDecodesToExactlyItsCommand : Obligations.CtrlValueDecodesToExactlyItsCommand := by
  constructor
  · intro v i
    constructor
    · exact encodeWord_of_decodeWord
    · rintro rfl
      exact decodeWord_encodeWord i
  · intro i rest _
    exact decode_ctrlBytes_append (decodeWord_encodeWord i) rest

/-! ### Reserved values -/

/-- The opcode map has no row exactly for 0x7 to 0xF (30_encoding R69, R70 (a)). -/
theorem commandOf_eq_none_iff (opc : BitVec 4) (ws : BitVec 2) : commandOf opc ws = none ↔ 7 ≤ opc.toNat := by
  decide +revert

/-- A value is reserved for one of the three reasons of 30_encoding R70. -/
theorem decodeWord_error_iff (v : Word) :
    (∃ e, decodeWord v = .error e) ↔
      7 ≤ (opcField v).toNat ∨ rsvField v ≠ 0 ∨ (opcField v ≠ 0x3 ∧ wselField v ≠ 0) := by
  rw [← commandOf_eq_none_iff (opcField v) (wselField v)]
  unfold decodeWord
  by_cases hr : rsvField v ≠ 0
  · exact iff_of_true ⟨.rsvNotZero, if_pos hr⟩ (.inr (.inl hr))
  · rw [if_neg hr]
    cases commandOf (opcField v) (wselField v) with
    | none => exact iff_of_true ⟨.opcode, rfl⟩ (.inl rfl)
    | some i =>
      by_cases hw : opcField v ≠ 0x3 ∧ wselField v ≠ 0
      · exact iff_of_true ⟨.wselNotZero, if_pos hw⟩ (.inr (.inr hw))
      · refine iff_of_false ?_ (by simp_all)
        rintro ⟨e, he⟩
        cases (if_neg hw).symm.trans he

/-- OPC as a number (30_encoding R67). -/
theorem opcField_toNat (v : Word) : (opcField v).toNat = v.toNat % 16 := by
  simp [opcField, BitVec.extractLsb'_toNat]

/-- WSEL as a number (30_encoding R67). -/
theorem wselField_toNat (v : Word) : (wselField v).toNat = v.toNat / 16 % 4 := by
  simp [wselField, BitVec.extractLsb'_toNat, Nat.shiftRight_eq_div_pow]

/-- RSV as a number (30_encoding R67). -/
theorem rsvField_toNat (v : Word) : (rsvField v).toNat = v.toNat / 64 := by
  simp only [rsvField, BitVec.extractLsb'_toNat, Nat.shiftRight_eq_div_pow]
  omega

/-- The reasons of 30_encoding R70 as statements about the value as a number. -/
theorem decodeWord_error_iff_toNat (v : Word) :
    (∃ e, decodeWord v = .error e) ↔
      7 ≤ v.toNat % 16 ∨ v.toNat / 64 ≠ 0 ∨ (v.toNat % 16 ≠ 3 ∧ v.toNat / 16 % 4 ≠ 0) := by
  rw [decodeWord_error_iff, ← opcField_toNat, ← wselField_toNat, ← rsvField_toNat]
  simp only [ne_eq, ← BitVec.toNat_inj]
  rfl

/-- A value is one command exactly when it is not reserved (30_encoding R76). -/
theorem existsUnique_decodeWord_iff (v : Word) :
    (∃! i, decodeWord v = .ok i) ↔ ¬ ∃ e, decodeWord v = .error e := by
  cases h : decodeWord v with
  | ok i => simp
  | error e => simp [ExistsUnique]

/-- Settles O2: a value is reserved or one command, and which is read off its three fields. -/
theorem everyCtrlValueIsOneCommandOrReserved : Obligations.EveryCtrlValueIsOneCommandOrReserved :=
  fun v => ⟨decodeWord_error_iff_toNat v, by rw [existsUnique_decodeWord_iff, decodeWord_error_iff_toNat]⟩

/-- Settles O3: each of the ten values is that of its command. -/
theorem specWordsDecodeToTheirCommands : Obligations.SpecWordsDecodeToTheirCommands :=
  ⟨decodeWord_encodeWord .nop, decodeWord_encodeWord .lock, decodeWord_encodeWord .hash,
    decodeWord_encodeWord (.subkey .w1), decodeWord_encodeWord (.subkey .w2), decodeWord_encodeWord (.subkey .w4),
    decodeWord_encodeWord (.subkey .w8), decodeWord_encodeWord .xorwin, decodeWord_encodeWord .cipher,
    decodeWord_encodeWord .cipherRec⟩

end Sys2Proof

/-! ## A command's CTRL write runs it (30_encoding R67, R73) -/

namespace Sys2Proof.Machine

/-- An 8-byte write of CTRL passes the checks while the BCE is idle (20_memory R56). -/
theorem busAccess_ctrl_of_idle {s : State} (h : s.idle) (v : Word) :
    busAccess { dir := .write, off := 0x010, width := .w8, data := v } s = ctrlWrite v s := by
  obtain ⟨hb, hf⟩ := h
  refine busAccess_ctrl hf ?_ rfl rfl
  have hidle : s.busy = true → (0x010 : Offset).toNat = offIrqen := fun h => absurd (hb.symm.trans h) (by decide)
  exact accessCheck_writeReg s v (by decide) (by decide) (by decide) hidle (fun _ => by decide)

/-- A CTRL write of a command's value issues it (30_encoding R73). -/
theorem ctrlWrite_of_ok {v : Word} {i : Instr} (h : decodeWord v = .ok i) (s : State) : ctrlWrite v s = exec i s := by
  rw [ctrlWrite, h]

/-- Settles O4: the write passes the checks and its value decodes to the command. -/
theorem ctrlWriteStepRunsDecodedCommand : Obligations.CtrlWriteStepRunsDecodedCommand := by
  intro s v i rest hidle hs hv
  have hidle' : State.idle { s with sched := rest } := hidle
  rw [step_of_bus hs, busAccess_ctrl_of_idle hidle', ctrlWrite_of_ok hv]

/-- The decoder of table words is the decoder of CTRL values. -/
theorem decodeWord_of_decodeTableWord {nbits w : Nat} {i : Instr} (h : decodeTableWord nbits w = some i) :
    decodeWord (BitVec.ofNat 64 (w % 2 ^ nbits)) = .ok i := by
  rw [decodeTableWord, decode_ctrlBytes] at h
  cases hd : decodeWord (BitVec.ofNat 64 (w % 2 ^ nbits)) with
  | ok j => simpa [hd] using h
  | error e => simp [hd] at h

/-- Settles O6: the placed turn is the CTRL write of the word, and the state it finds is idle. -/
theorem placedWordRunsAsNextStep : Obligations.PlacedWordRunsAsNextStep := by
  intro s w i h
  exact ctrlWriteStepRunsDecodedCommand (s.withFetchWord 64 w) _ i s.sched ⟨rfl, rfl⟩ rfl
    (decodeWord_of_decodeTableWord h)

end Sys2Proof.Machine

/-! ## The statements of the host's program (30_encoding R77, R78, R80) -/

namespace Sys2Proof.Machine

/-- A step whose turn is the host's is the statement that the host takes next. -/
theorem step_of_hostTurn {s : State} {st : Stmt} (hturn : (nextTurn s).1 = .host) (hc : currentStmt s = some st) :
    step s = execStmt st { s with sched := (nextTurn s).2 } := by
  have hc' : currentStmt { s with sched := (nextTurn s).2 } = some st := hc
  rw [step, stepTurn, hturn, takeTurn, hostTurn, hc']

/-- Settles O47: a statement does nothing to the BCE, or is the bus access that its transaction names. -/
theorem hostStatementsDoNoBceStep : Obligations.HostStatementsDoNoBceStep := by
  intro s st hturn hc htr
  obtain ⟨t, ht⟩ := execStmt_next st { s with sched := (nextTurn s).2 }
  refine ⟨t, (step_of_hostTurn hturn hc).trans ht, ?_⟩
  rcases execStmt_cases ht with ⟨_, hst⟩ | ⟨x, _, hx, _⟩
  · exact sameBce_trans (sameBce_sched _ s) hst
  · cases htr.symm.trans hx

/-- While the host's program goes on, its next statement is the one at its place (30_encoding R78). -/
theorem currentStmt_of_running {s : State} (h : s.host.status = .running) :
    currentStmt s = s.host.prog[s.host.place]? := if_pos h

/-- A step whose turn is the host's, while its program goes on, is the statement at its place. -/
theorem step_of_running {s : State} {rest : List Turn} {st : Stmt} (hr : s.host.status = .running)
    (hs : s.sched = .host :: rest) (hp : s.host.prog[s.host.place]? = some st) :
    step s = execStmt st { s with sched := rest } :=
  step_of_stmt hs ((currentStmt_of_running hr).trans hp)

/-- Addition modulo 2^64 (30_encoding R78). -/
theorem ofNat_add_mod (x y : Word) : BitVec.ofNat 64 ((x.toNat + y.toNat) % 2 ^ 64) = x + y := by
  apply BitVec.eq_of_toNat_eq
  simp

/-- A shift left as a product modulo 2^64 (30_encoding R78). -/
theorem ofNat_mul_pow_mod (x : Word) (k : Nat) : BitVec.ofNat 64 (x.toNat * 2 ^ k % 2 ^ 64) = x <<< k := by
  apply BitVec.eq_of_toNat_eq
  simp [Nat.shiftLeft_eq]

/-- Settles O48: each of the four statements writes its register and advances. -/
theorem hostArithmeticWritesItsRegister : Obligations.HostArithmeticWritesItsRegister := by
  intro s hD hS imm k rest hr hs
  rw [ofNat_add_mod, ofNat_mul_pow_mod]
  exact ⟨step_of_running hr hs, step_of_running hr hs, step_of_running hr hs, step_of_running hr hs⟩

/-- A branch taken to a target that the program holds goes there. -/
theorem branch_taken {t : Target} {s : State} {p : Nat} (h : targetPlace s t = some p) :
    branch true t s = setPlace p s := by
  simp [branch, h]

/-- The step of a branch with condition `c` goes to its target when `c` holds, if there is one, and on when `c` fails
(30_encoding R78). -/
theorem step_of_branch {s : State} {rest : List Turn} {b : Bool} {tg : Target} {c : Prop}
    (hb : b = true ↔ c) (h : step s = .next (branch b tg { s with sched := rest })) :
    (c → ∀ p, targetPlace s tg = some p → step s = .next (setPlace p { s with sched := rest })) ∧
    (¬ c → step s = .next (advance { s with sched := rest })) := by
  constructor
  · intro hc p hp
    have hp' : targetPlace { s with sched := rest } tg = some p := hp
    rw [h, hb.2 hc, branch_taken hp']
  · intro hc
    have hb' : b = false := Bool.eq_false_iff.2 (mt hb.1 hc)
    rw [h, hb']
    rfl

/-- The place a branch goes to holds its label, and `1b` is the nearest before the branch (30_encoding R78, R80). -/
theorem targetPlace_some {s : State} {tg : Target} {p : Nat} (h : targetPlace s tg = some p) :
    (∀ l, tg = .label l ∨ tg = .back l → s.host.prog[p]? = some (.label l)) ∧
    ∀ l, tg = .back l → p < s.host.place ∧ ∀ q, p < q → q < s.host.place → s.host.prog[q]? ≠ some (.label l) := by
  cases tg with
  | label l =>
    have hp := (labelFrom_some h).2
    simpa using hp
  | back l =>
    have hp := labelBefore_some h
    simpa using hp

/-- Settles O49: the three branches differ in their condition only; where a label stands is found by the search for it. -/
theorem hostBranchesCompareByValue : Obligations.HostBranchesCompareByValue := by
  intro s hS v tg rest hr hs
  refine ⟨fun hp => ?_, fun hp => ?_, fun hp => ?_, fun hp he => ?_, fun p => targetPlace_some⟩
  · obtain ⟨ht, hn⟩ := step_of_branch (c := s.host.regs[hS] ≠ srcValue s v) bne_iff_ne (step_of_running hr hs hp)
    exact ⟨ht, fun h => hn (not_not.2 h)⟩
  · exact step_of_branch beq_iff_eq (step_of_running hr hs hp)
  · exact step_of_branch BitVec.ult_iff_lt (step_of_running hr hs hp)
  · exact (step_of_running hr hs hp).trans (if_pos he)

/-- `[hA]` is the low 21 bits of the register (30_encoding R77). -/
theorem offValue_reg (s : State) (hA : HReg) : offValue s (.reg hA) = BitVec.ofNat 21 s.host.regs[hA].toNat :=
  (BitVec.ofNat_toNat ..).symm

/-- The step of a load is the read at its offset, and the value read goes to its register (30_encoding R77). -/
theorem step_of_ld {s : State} {rest : List Turn} {n : Width} {hD : HReg} {off : OffExpr}
    (h : step s = execStmt (.ld n hD off) { s with sched := rest }) :
    ∃ u t,
      busAccess { dir := .read, off := offValue s off, width := n, data := 0 } (advance { s with sched := rest }) =
        .next u ∧
      step s = .next t ∧ t = setHostReg hD u.rdata u := by
  obtain ⟨u, hu⟩ := busAccess_next { dir := .read, off := offValue s off, width := n, data := 0 }
    (advance { s with sched := rest })
  exact ⟨u, _, hu, h.trans (execStmt_ld (s := { s with sched := rest }) hD hu), rfl⟩

/-- Settles O50: a statement's step is its bus access, for either form of the offset. -/
theorem hostLoadsAndStoresAreBusAccesses : Obligations.HostLoadsAndStoresAreBusAccesses := by
  intro s n hD hA src rest hr hs
  rw [← offValue_reg]
  exact ⟨fun a => step_of_running hr hs, step_of_running hr hs, fun a hp => step_of_ld (step_of_running hr hs hp),
    fun hp => step_of_ld (step_of_running hr hs hp)⟩

end Sys2Proof.Machine

/-! ## The window selector: SUBKEY (40_subkey R83 to R87) -/

namespace Sys2Proof.Machine

/-- A start is at most the offset it reduces, so it fits in RESULT whatever the length. -/
theorem subkeyEffect_result_toNat (wb : Width) (s : State) :
    (subkeyEffect wb s).result.toNat = windowStart s.cfg s.a0L wb.bytes s.a1L.toNat := by
  have hle : windowStart s.cfg s.a0L wb.bytes s.a1L.toNat ≤ s.a0L.toNat := Nat.mod_le _ _
  rw [subkeyEffect_result, BitVec.toNat_ofNat, Nat.mod_eq_of_lt (hle.trans_lt s.a0L.isLt)]

/-- Settles O16: the completion writes RESULT alone, and the start is R83's. -/
theorem subkeyCompletesWithWindowStart : Obligations.SubkeyCompletesWithWindowStart := by
  intro wb s hb _
  exact ⟨_, exec_of_busy (.subkey wb) hb, subkeyEffect_result_toNat wb s⟩

/-- Settles O11: an empty window is admitted, since 0 is at most KE(wb), and its completion leaves the fault record of the idle
state; the modulus of its start is KE(wb) - 0 + 1. -/
theorem zeroLengthWindowNeverFails : Obligations.ZeroLengthWindowNeverFails := by
  intro wb s hidle hlen
  have hadm : admitted (.subkey wb) s.arg1 s := by rw [hlen]; exact Nat.zero_le _
  refine ⟨_, issueAndComplete_of_admitted hidle hadm, hidle.2, rfl, ?_⟩
  have hstart := subkeyEffect_result_toNat wb (accept (.subkey wb) s)
  rw [accept_cfg, accept_a0L, accept_a1L, hlen] at hstart
  exact hstart

/-- Words that lie inside the key's word view lie inside its bytes: a trailing part word is not counted (00_scope R11). -/
theorem mul_le_keyBytes {c : Config} {n wb : Nat} (h : n ≤ c.keyElements wb) : n * wb ≤ c.keyBytes :=
  Nat.mul_le_of_le_div _ _ _ h

/-- Settles O53: both selectors end inside the key words, and so inside the key bytes. -/
theorem selectedWindowsStayInsideTheKey : Obligations.SelectedWindowsStayInsideTheKey := by
  constructor
  · intro c o wb len hlen
    have hend := windowStart_add_le c o wb len hlen
    exact ⟨hend, mul_le_keyBytes hend⟩
  · intro c o
    have hend := selectStart_add_le c o
    exact ⟨hend, mul_le_keyBytes hend⟩

/-- A command that fails its check while the BCE is idle leaves the record of its fault, with the CTRL value, and nothing else
(30_encoding R73, 60_exceptions R123). -/
theorem exec_of_failed_check {i : Instr} {s : State} {f : FaultCode} (h : s.idle) (hc : commandCheck i s = some f) :
    exec i s = .next { s with fault := true, errcode := f.code, errinfo := encodeWord i } := by
  obtain ⟨hb, hf⟩ := h
  have hissue : issue i (commandCheck i) s = raise f (encodeWord i) s := by simp [issue, hf, hc]
  rw [exec_of_not_busy i hb, hissue, raise_of_ok f (encodeWord i) hf]

/-- Settles O10: SUBKEY's check is the one that fails. -/
theorem tooLongWindowRaisesOverflow : Obligations.TooLongWindowRaisesOverflow := by
  intro wb s hidle hlen
  have hcheck : commandCheck (.subkey wb) s = some .windowOverflow := if_pos hlen
  exact exec_of_failed_check hidle hcheck

end Sys2Proof.Machine

/-! ## The index hash: HASH (41_index_hash R91 to R94) -/

namespace Sys2Proof.Machine

/-- Each byte of the RESULT of HASH: truncating A0_L first drops nothing that the hash reads (41_index_hash R92). -/
theorem hashEffect_result_extract (s : State) {k : Nat} (hk : k < 8) :
    (hashEffect s).result.extractLsb' (8 * k) 8 =
      if k < s.cfg.idxBytes then substitute s.cfg.sbox (s.a0L.extractLsb' (8 * k) 8) else 0 := by
  rw [hashEffect_result, hashIndex, indexHash_extract _ _ _ _ hk]
  refine if_ctx_congr Iff.rfl (fun hidx => ?_) fun _ => rfl
  rw [truncIdx_extract, if_pos hidx]

/-- Settles O15: the completion writes RESULT alone, byte by byte the image of A0_L. -/
theorem hashCompletesWithSubstitutedBytes : Obligations.HashCompletesWithSubstitutedBytes := by
  intro s hb
  exact ⟨_, exec_of_busy .hash hb, fun _ hk => hashEffect_result_extract s hk⟩

/-- Settles O52: byte `k` of the hash is the image of byte `k` alone, and the table, having no repeats, tells bytes apart. -/
theorem indexHashIsByteLocal : Obligations.IndexHashIsByteLocal := by
  intro c x y k hk
  rw [hashIndex_extract c x hk, hashIndex_extract c y hk]
  exact (substitute_injective c.sbox_nodup).eq_iff

end Sys2Proof.Machine


/-! ## The algebra of the block transforms (42_cipher R106, R107, R110) -/

namespace Sys2Proof.Machine

/-! ### Windows XORed into one record -/

/-- Two windows, one after the other, byte by byte: both go into the payload, and the index field keeps its bytes. -/
theorem xorBlock_xorBlock_get (c : Config) (key : Memory) (m n : Nat) {rec : Memory} (hw : rec.wf c.recBytes = true)
    (j : Nat) :
    (xorBlock c key n (xorBlock c key m rec)).get j =
      if c.idxBytes ≤ j ∧ j < c.recBytes then
        rec.get j ^^^ key.get (m * c.wBytes + (j - c.idxBytes)) ^^^ key.get (n * c.wBytes + (j - c.idxBytes))
      else rec.get j := by
  rw [xorBlock_get c key n (xorBlock_wf c key m hw), xorBlock_get c key m hw]
  split <;> rfl

/-- Two windows go in in either order (42_cipher R110). -/
theorem xorBlock_comm (c : Config) (key : Memory) (m n : Nat) {rec : Memory} (hw : rec.wf c.recBytes = true) :
    xorBlock c key n (xorBlock c key m rec) = xorBlock c key m (xorBlock c key n rec) := by
  apply Memory.ext_of_wf (xorBlock_wf c key n (xorBlock_wf c key m hw)) (xorBlock_wf c key m (xorBlock_wf c key n hw))
  intro j
  rw [xorBlock_xorBlock_get c key m n hw, xorBlock_xorBlock_get c key n m hw]
  simp only [BitVec.xor_assoc, BitVec.xor_comm (key.get (m * c.wBytes + (j - c.idxBytes)))]

/-- One window twice is the record before (42_cipher R106). -/
theorem xorBlock_self (c : Config) (key : Memory) (n : Nat) {rec : Memory} (hw : rec.wf c.recBytes = true) :
    xorBlock c key n (xorBlock c key n rec) = rec := by
  apply Memory.ext_of_wf (xorBlock_wf c key n (xorBlock_wf c key n hw)) hw
  intro j
  rw [xorBlock_xorBlock_get c key n n hw, BitVec.xor_assoc, BitVec.xor_self, BitVec.xor_zero, ite_self]

/-- One window in two records: the difference of a payload byte stays (42_cipher R110). -/
theorem xorBlock_get_xor_get (c : Config) (key : Memory) (n : Nat) {rec rec' : Memory}
    (hw : rec.wf c.recBytes = true) (hw' : rec'.wf c.recBytes = true) (j : Nat) :
    (xorBlock c key n rec).get j ^^^ (xorBlock c key n rec').get j = rec.get j ^^^ rec'.get j := by
  rw [xorBlock_get c key n hw, xorBlock_get c key n hw']
  split
  · rw [BitVec.xor_comm (rec'.get j), BitVec.xor_assoc, ← BitVec.xor_assoc (key.get _), BitVec.xor_self,
      BitVec.zero_xor]
  · rfl

/-! ### A block command from its CTRL write to its completion -/

/-- Of the record, the selected window rests on the index field alone (42_cipher R104). -/
theorem blockStart_of_read_eq (i : Instr) (o : Word) {s t : State} (hc : t.cfg = s.cfg) (ho : t.idxoff = s.idxoff)
    (hr : t.recBuf.read 0 s.cfg.idxBytes = s.recBuf.read 0 s.cfg.idxBytes) : blockStart i o t = blockStart i o s := by
  cases i <;> simp only [blockStart, cipherStart, recordIndex, hc, ho, hr]

/-- A window XORed into the record leaves the window that a command selects as it was: the index field is kept. -/
theorem blockStart_of_xorBlock {i : Instr} {o : Word} {s t : State} {m n : Nat} (hs : blockStart i o s = some n)
    (h : s.recBuf.wf s.cfg.recBytes = true) (hc : t.cfg = s.cfg) (ho : t.idxoff = s.idxoff)
    (hr : t.recBuf = xorBlock s.cfg s.keyStore m s.recBuf) : blockStart i o t = some n := by
  rw [blockStart_of_read_eq i o hc ho (by rw [hr, xorBlock_index s.cfg s.keyStore m h]), hs]

/-- A block command that is issued while LOCKED = 1 is accepted, and completes with the window of its operand. -/
theorem issueAndComplete_of_blockStart {i : Instr} {s : State} {n : Nat} (h : s.idle) (hl : s.locked = true)
    (hs : blockStart i s.arg0 s = some n) :
    issueAndComplete i s = .next (complete (xorPayload n) (accept i s)) := by
  have heffect : commandEffect i (accept i s) = xorPayload n (accept i s) :=
    commandEffect_of_blockStart ((blockStart_congr i s.arg0 rfl rfl rfl).trans hs)
  rw [issueAndComplete_of_admitted h (admitted_of_blockStart hs hl), complete, heffect, complete]

/-! ### The obligations -/

/-- Settles O18: CIPHER selects the window of the hash of its masked index. -/
theorem cipherCompletesByXoringHashedWindow : Obligations.CipherCompletesByXoringHashedWindow :=
  fun _ h hb => exec_xorsWindow (i := .cipher) h hb rfl

/-- Settles O54: the first run keeps the index field, KEY and IDXOFF, so the second selects the same window and takes it out again. -/
theorem blockCommandsAreInvolutions : Obligations.BlockCommandsAreInvolutions := by
  intro i s hi h hidle hl
  obtain ⟨n, hn⟩ := exists_blockStart hi s.arg0 s
  refine ⟨_, issueAndComplete_of_blockStart hidle hl hn, rfl, rfl, ?_, fun u hu hcfg hlu hkey hoff harg hrec => ?_⟩
  · refine (issueAndComplete_of_blockStart (s := complete (xorPayload n) (accept i s)) ⟨rfl, hidle.2⟩ hl
      (blockStart_of_xorBlock hn h.recForm rfl rfl rfl)).trans ?_
    exact congrArg (fun m => Host.Outcome.next { complete (xorPayload n) (accept i s) with recBuf := m })
      (xorBlock_self s.cfg s.keyStore n h.recForm)
  · have hagain : blockStart i u.arg0 u = some n :=
      harg ▸ blockStart_of_xorBlock hn h.recForm hcfg hoff hrec
    refine ⟨_, issueAndComplete_of_blockStart hu hlu hagain, ?_⟩
    calc xorBlock u.cfg u.keyStore n u.recBuf
        = xorBlock s.cfg s.keyStore n (xorBlock s.cfg s.keyStore n s.recBuf) := by rw [hcfg, hkey, hrec]; rfl
      _ = s.recBuf := xorBlock_self s.cfg s.keyStore n h.recForm

/-- Settles O55: IDXOFF is IDX_BITS wide, so HASH truncates nothing off the masked index and returns the offset that CIPHER selects. -/
theorem cipherIsXorwinAtTheHashedOffset : Obligations.CipherIsXorwinAtTheHashedOffset := by
  intro s h hidle hl
  have hmask : truncIdx s.cfg (truncIdx s.cfg s.arg0 ^^^ s.idxoff) = truncIdx s.cfg s.arg0 ^^^ s.idxoff := by
    rw [truncIdx_xor, truncIdx_truncIdx, h.idxoffWidth]
  refine ⟨_, _, _, issueAndComplete_of_blockStart (i := .cipher) hidle hl rfl,
    issueAndComplete_of_admitted (i := .hash) (s := { s with arg0 := _ }) hidle trivial,
    issueAndComplete_of_blockStart (i := .xorwin) (s := { s with arg0 := _ }) hidle hl rfl, ?_⟩
  exact congrArg (fun x => xorBlock s.cfg s.keyStore (selectStart s.cfg (hashIndex s.cfg x)) s.recBuf) hmask.symm

/-- Two block commands, the second with an operand of its own: both windows that they select in the first state are XORed in. -/
theorem issueAndComplete_twice {i j : Instr} {s : State} {o p : Word} {m n : Nat} (h : s.Inv) (hidle : s.idle)
    (hl : s.locked = true) (hm : blockStart i o s = some m) (hn : blockStart j p s = some n) :
    ∃ t u, issueAndComplete i { s with arg0 := o } = .next t ∧ issueAndComplete j { t with arg0 := p } = .next u ∧
      u.recBuf = xorBlock s.cfg s.keyStore n (xorBlock s.cfg s.keyStore m s.recBuf) := by
  have hfirst : blockStart i o { s with arg0 := o } = some m := (blockStart_congr i o rfl rfl rfl).trans hm
  refine ⟨_, _, issueAndComplete_of_blockStart hidle hl hfirst,
    issueAndComplete_of_blockStart ⟨rfl, hidle.2⟩ hl ?_, rfl⟩
  exact blockStart_of_xorBlock hn h.recForm rfl rfl rfl

/-- Settles O57: each run, in either order, XORs in the window that it selects in the first state; and one window drops out of the
difference of two payloads. -/
theorem successiveTransformsComposeByXor : Obligations.SuccessiveTransformsComposeByXor := by
  constructor
  · intro i j s o1 o2 n1 n2 h hidle hl h1 h2
    obtain ⟨t, u, ht, hu, hrec⟩ := issueAndComplete_twice h hidle hl h1 h2
    obtain ⟨v, w, hv, hw, hrec'⟩ := issueAndComplete_twice h hidle hl h2 h1
    refine ⟨t, u, v, w, ht, hu, hv, hw, ?_, fun k hlo hhi => ?_⟩
    · rw [hrec, hrec', xorBlock_comm s.cfg s.keyStore n1 n2 h.recForm]
    · rw [hrec, xorBlock_xorBlock_get s.cfg s.keyStore n1 n2 h.recForm, if_pos ⟨hlo, hhi⟩]
  · intro i j s s' n h h' hidle hidle' hl hl' hcfg hkey hs hs'
    refine ⟨_, _, issueAndComplete_of_blockStart hidle hl hs, issueAndComplete_of_blockStart hidle' hl' hs',
      fun k _ _ => ?_⟩
    have hform' : s'.recBuf.wf s.cfg.recBytes = true := hcfg ▸ h'.recForm
    have hrec' : (complete (xorPayload n) (accept j s')).recBuf = xorBlock s.cfg s.keyStore n s'.recBuf := by
      rw [hcfg, hkey]; rfl
    rw [hrec']
    exact xorBlock_get_xor_get s.cfg s.keyStore n h.recForm hform' k

end Sys2Proof.Machine

/-! ## NOP and LOCK, and the seal on KEY and IDXOFF (43_control R116 to R120) -/

namespace Sys2Proof.Machine

/-! ### The two control commands -/

/-- Settles O12: the effect of NOP is to leave the state as it is, so its completion is the handshake. -/
theorem nopCompletesWithHandshakeOnly : Obligations.NopCompletesWithHandshakeOnly :=
  fun _ hb => exec_of_busy .nop hb

/-- Settles O13: the effect of LOCK writes LOCKED alone, and the completion adds the handshake. -/
theorem lockCompletesBySettingLocked : Obligations.LockCompletesBySettingLocked :=
  fun _ hb => exec_of_busy .lock hb

/-- Settles O14: every state admits LOCK, a locked one too, and its completion then writes 1 over 1. -/
theorem lockIsIdempotent : Obligations.LockIsIdempotent :=
  fun _ hidle _ => issueAndComplete_of_admitted (i := .lock) hidle trivial

/-! ### From LOCK to the next reset -/

/-- `t` is locked, and its KEY and IDXOFF are those of `s`. -/
def sealedAs (s t : State) : Prop := t.locked = true ∧ t.keyStore = s.keyStore ∧ t.idxoff = s.idxoff

/-- The seal holds through the steps of a run. -/
theorem sealedAs_trans {s t u : State} (h : sealedAs s t) (h' : sealedAs t u) : sealedAs s u := by
  obtain ⟨_, hkey, hoff⟩ := h
  obtain ⟨hlock, hkey', hoff'⟩ := h'
  exact ⟨hlock, hkey'.trans hkey, hoff'.trans hoff⟩

/-- The host's side has no part in the seal. -/
theorem sealedAs_of_sameBce {s t : State} (hl : s.locked = true) (h : sameBce s t) : sealedAs s t := by
  obtain ⟨_, _, _, rfl⟩ := eq_of_sameBce h
  exact ⟨hl, rfl, rfl⟩

/-- Of the registers, only a write of IDXOFF breaks the seal (10_state R30 to R35). -/
theorem sealedAs_writeReg {a : Nat} (v : Word) {s : State} (hl : s.locked = true) (ha : a ≠ offIdxoff) :
    sealedAs s (writeReg a v s) := by
  rcases writeReg_cases a v s with ⟨_, e⟩ | ⟨_, e⟩ | ⟨_, e⟩ | ⟨_, e⟩ | ⟨hidx, _⟩ | e
  case inr.inr.inr.inr.inl => exact absurd hidx ha
  all_goals rw [e]; exact ⟨hl, rfl, rfl⟩

/-- While LOCKED = 1 the checks let no write of KEY or IDXOFF through (20_memory R56). -/
theorem sealedAs_storeValue {x : Access} {s : State} (hl : s.locked = true) (hc : accessCheck s x = none)
    (hd : x.dir = .write) : sealedAs s (storeValue x s) := by
  obtain ⟨_, r, hr, _, _, _, hseal⟩ := accessCheck_none hc
  obtain ⟨hkey, hidx⟩ := hseal hd hl
  rcases storeValue_cases x s with ⟨_, e⟩ | ⟨_, e⟩ | ⟨hr', _⟩ | ⟨_, e⟩
  · rw [e]; exact sealedAs_writeReg x.data hl hidx
  · rw [e]; exact ⟨hl, rfl, rfl⟩
  · exact absurd (Option.some.inj (hr.symm.trans hr')) hkey
  · rw [e]; exact ⟨hl, rfl, rfl⟩

/-- Raising a fault keeps the seal: it writes the fault record alone (60_exceptions R123). -/
theorem sealedAs_raise (f : FaultCode) (info : Word) {s : State} (hl : s.locked = true) : sealedAs s (raise f info s) :=
  ⟨(raise_locked f info s).trans hl, raise_keyStore f info s, raise_idxoff f info s⟩

/-- Issuing a command keeps the seal, whichever way its checks go (30_encoding R73). -/
theorem sealedAs_issue (i : Instr) {s : State} (hl : s.locked = true) : sealedAs s (issue i (commandCheck i) s) := by
  rcases issue_cases i (commandCheck i) s with ⟨_, e⟩ | ⟨f, _, _, e⟩ | ⟨_, _, e⟩ <;> rw [e]
  · exact ⟨hl, rfl, rfl⟩
  · exact sealedAs_raise f _ hl
  · exact ⟨hl, rfl, rfl⟩

/-- No command unlocks or writes KEY or IDXOFF when it completes (10_state R39). -/
theorem sealedAs_complete (i : Instr) {s : State} (hl : s.locked = true) :
    sealedAs s (complete (commandEffect i) s) :=
  ⟨commandEffect_locked_of_locked i hl, commandEffect_keyStore i s, commandEffect_idxoff i s⟩

/-- A host access keeps the seal, whether it is performed, fails a check, or finds FAULT = 1. -/
theorem sealedAs_busAccess {x : Access} {s t : State} (hl : s.locked = true) (h : busAccess x s = .next t) :
    sealedAs s t := by
  have hread (v : Word) {u : State} (hu : sealedAs s u) : sealedAs s (returnRead x v u) :=
    sealedAs_trans hu (sealedAs_of_sameBce hu.1 (sameBce_returnRead x v u))
  rcases busAccess_cases h with
    ⟨_, rfl⟩ | ⟨f, _, _, rfl⟩ | ⟨_, _, _, rfl⟩ | ⟨_, _, _, _, _, ⟨e, _, rfl⟩ | ⟨i, _, rfl⟩⟩ | ⟨_, hc, hd, _, rfl⟩
  · exact hread _ ⟨hl, rfl, rfl⟩
  · exact hread _ (sealedAs_raise f _ hl)
  · exact hread _ ⟨hl, rfl, rfl⟩
  · exact sealedAs_raise _ _ hl
  · exact sealedAs_issue i hl
  · exact sealedAs_storeValue hl hc hd

/-- Every step but reset keeps the seal: it does nothing to the BCE, or one host access, or one completion. -/
theorem sealedAs_step {s t : State} (hl : s.locked = true) (hr : (nextTurn s).1 ≠ .reset) (h : step s = .next t) :
    sealedAs s t := by
  rcases step_cases h with ⟨hn, _⟩ | ⟨_, hs⟩ | ⟨x, u, v, _, _, hu, hv, hs⟩ | ⟨i, _, _, _, rfl⟩
  · exact absurd hn hr
  · exact sealedAs_of_sameBce hl hs
  · have hsu : sealedAs s u := sealedAs_of_sameBce hl hu
    have huv : sealedAs u v := sealedAs_busAccess hsu.1 hv
    have hvt : sealedAs v t := sealedAs_of_sameBce huv.1 hs
    exact sealedAs_trans hsu (sealedAs_trans huv hvt)
  · exact sealedAs_complete i (s := { s with sched := (nextTurn s).2 }) hl

/-- Settles O39: every other turn keeps the seal, and reset leaves LOCKED = 0 with KEY and IDXOFF empty. -/
theorem lockSealsKeyAndOffsetUntilReset : Obligations.LockSealsKeyAndOffsetUntilReset := by
  intro s t hl h
  refine ⟨fun hr => sealedAs_step hl hr h, fun hr => ?_⟩
  rw [step, stepTurn, hr] at h
  cases h
  exact ⟨rfl, fun _ => rfl, rfl⟩

end Sys2Proof.Machine

/-! ## The faults and the fault record (20_memory R56, 60_exceptions R122 to R133) -/

namespace Sys2Proof.Machine

/-! ### A CTRL write that is refused -/

/-- A CTRL write of a reserved value raises ILLEGAL_CMD with the value, with no look at the lock or ARG1 (60_exceptions R126). -/
theorem ctrlWrite_of_error {v : Word} {e : Reserved} (h : decodeWord v = .error e) (s : State) :
    ctrlWrite v s = .next (raise .illegalCmd v s) := by
  rw [ctrlWrite, h]

/-- Settles O8: the write passes the access checks, its value decodes to no command, and the record was empty. -/
theorem reservedCtrlValueRaisesIllegalCmd : Obligations.ReservedCtrlValueRaisesIllegalCmd := by
  intro s v e rest hidle hs hv
  have hidle' : State.idle { s with sched := rest } := hidle
  rw [step_of_bus hs, busAccess_ctrl_of_idle hidle', ctrlWrite_of_error hv, raise_of_ok _ _ hidle'.2]
  rfl

/-- Settles O9: the check of the three commands is the lock's, and it fails while LOCKED = 0. -/
theorem blockCommandWithoutLockRaisesNotLocked : Obligations.BlockCommandWithoutLockRaisesNotLocked := by
  intro i s hi hidle hl
  have hlock : lockCheck s = some .notLocked := by rw [lockCheck, hl]; rfl
  have hcheck : commandCheck i s = some .notLocked := by rcases hi with rfl | rfl | rfl <;> exact hlock
  exact exec_of_failed_check hidle hcheck

/-! ### The last two checks of an access: BUSY and the lock -/

/-- An access that passes the checks of the address map and is not allowed while BUSY = 1 fails the check of BUSY, which comes
before the lock's (20_memory R56). -/
theorem accessCheck_busy {s : State} {x : Access} {r : Region} (hb : s.busy = true) (ha : x.addr % x.size = 0)
    (hr : regionOf s.cfg x.addr x.size = some r) (hw : r = .regs → x.size = 8)
    (ho : x.dir = .write → readOnlyReg x.addr = false) (hn : allowedWhileBusy x.dir x.addr = false) :
    accessCheck s x = some .busyAccess := by
  have hwide : ¬ (r = .regs ∧ x.size ≠ 8) := fun h => h.2 (hw h.1)
  have hwritable : ¬ (x.dir = .write ∧ readOnlyReg x.addr = true) := fun h => by simp [ho h.1] at h
  simp [-Bool.not_eq_true, accessCheck, ha, hr, hwide, hwritable, hb, hn]

/-- A write that passes the checks before the lock's and goes to KEY or IDXOFF while LOCKED = 1 fails the lock's (60_exceptions
R127). -/
theorem accessCheck_locked {s : State} {x : Access} {r : Region} (hb : s.busy = false) (hl : s.locked = true)
    (hd : x.dir = .write) (ha : x.addr % x.size = 0) (hr : regionOf s.cfg x.addr x.size = some r)
    (hw : r = .regs → x.size = 8) (ho : readOnlyReg x.addr = false) (hk : r = .key ∨ x.addr = offIdxoff) :
    accessCheck s x = some .lockedWrite := by
  have hwide : ¬ (r = .regs ∧ x.size ≠ 8) := fun h => h.2 (hw h.1)
  simp only [accessCheck, ha, hr, if_neg hwide]
  simp [hd, ho, hb, hl, hk]

/-- No byte past REGS is a read-only register (10_state R22). -/
theorem readOnlyReg_of_ge {a : Nat} (h : 0x50 ≤ a) : readOnlyReg a = false := by
  rw [Bool.eq_false_iff, Ne, readOnlyReg_iff]
  omega

/-- Settles O29: the access reaches the check of the lock, in KEY or at IDXOFF. -/
theorem lockedWriteRaisesLockedWrite : Obligations.LockedWriteRaisesLockedWrite := by
  intro s x rest hidle hl hs hd ha h
  obtain ⟨hb, hf⟩ := hidle
  refine step_of_failed_access (f := .lockedWrite) hf hs ?_
  rcases h with ⟨hlo, hhi⟩ | ⟨hidx, hsize⟩
  · exact accessCheck_locked hb hl hd ha (regionOf_eq_key hlo x.size_pos hhi) nofun (readOnlyReg_of_ge (by omega)) (.inl rfl)
  · have hregs : regionOf s.cfg x.addr x.size = some .regs := regionOf_regs.2 (by omega)
    exact accessCheck_locked hb hl hd ha hregs (fun _ => hsize) (by rw [hidx]; decide) (.inr hidx)

/-- The five diagnostic registers, as a list of their offsets (20_memory R56). -/
theorem diagnosticReg_iff_mem (a : Nat) : diagnosticReg a = true ↔ a ∈ [0x000, 0x008, 0x018, 0x020, 0x048] := by
  simp [diagnosticReg_iff]

/-- Settles O32: the access lies in one region, and is none of those allowed while BUSY = 1. -/
theorem accessWhileBusyRaisesBusyAccess : Obligations.AccessWhileBusyRaisesBusyAccess := by
  intro s x rest hb hf hs ha hregion hread hwrite
  refine step_of_failed_access (f := .busyAccess) hf hs ?_
  have hr : ∃ r, regionOf s.cfg x.addr x.size = some r ∧ (r = .regs → x.size = 8) := by
    rcases hregion with ⟨hregs, hsize⟩ | ⟨hlo, hhi⟩ | ⟨hlo, hhi⟩
    · exact ⟨.regs, regionOf_regs.2 hregs, fun _ => hsize⟩
    · exact ⟨.recBuf, regionOf_eq_recBuf hlo hhi, nofun⟩
    · exact ⟨.key, regionOf_eq_key hlo x.size_pos hhi, nofun⟩
  obtain ⟨r, hr, hw⟩ := hr
  have ho : x.dir = .write → readOnlyReg x.addr = false := fun hd => by
    rw [Bool.eq_false_iff, Ne, readOnlyReg_iff]
    have := hwrite hd
    simp only [List.mem_cons, List.not_mem_nil] at this
    omega
  have hn : allowedWhileBusy x.dir x.addr = false := by
    rw [Bool.eq_false_iff]
    cases hd : x.dir with
    | read => exact fun hdiag => hread hd ((diagnosticReg_iff_mem _).1 hdiag)
    | write =>
      have := hwrite hd
      simp only [List.mem_cons, not_or] at this
      simpa [allowedWhileBusy] using this.2.2.1
  exact accessCheck_busy (s := { s with sched := rest }) hb ha hr hw ho hn

/-! ### While FAULT = 1 -/

/-- Settles O33: an access finds FAULT = 1 before any check, and returns the value of its read at most. -/
theorem faultedAccessesDoNothing : Obligations.FaultedAccessesDoNothing := by
  intro s x rest hf hs
  have hstep : step s = .next (faultedAccess x { s with sched := rest }) := (step_of_bus hs).trans (busAccess_of_fault x hf)
  rw [faultedAccess, returnRead_eq] at hstep
  refine ⟨fun hd => ?_, fun hd => ?_⟩
  · rw [hstep, hd]
    rfl
  · rw [hstep, if_pos hd]
    simp only [diagnosticReg_iff_mem]
    rfl

/-- While FAULT = 1 no access changes the BCE, so no command is accepted and no write is stored (60_exceptions R131). -/
theorem sameBce_of_faulted_access {x : Access} {s t : State} (hf : s.fault = true) (h : busAccess x s = .next t) :
    sameBce s t := by
  rw [busAccess_of_fault x hf] at h
  cases h
  exact sameBce_returnRead x _ s

/-- While FAULT = 1 a step other than reset changes the BCE only if it completes the command in flight (60_exceptions R122). -/
theorem step_cases_of_fault {s t : State} (hf : s.fault = true) (hr : (nextTurn s).1 ≠ .reset) (h : step s = .next t) :
    sameBce s t ∨
    ∃ i, (nextTurn s).1 = .engine ∧ s.busy = true ∧
      t = complete (commandEffect i) { s with sched := (nextTurn s).2 } := by
  rcases step_cases h with ⟨hn, _⟩ | ⟨_, hs⟩ | ⟨x, u, v, _, _, hu, hv, hs⟩ | ⟨i, he, hb, _, ht⟩
  · exact absurd hn hr
  · exact .inl hs
  · have hfu : u.fault = true := by obtain ⟨_, _, _, rfl⟩ := eq_of_sameBce hu; exact hf
    exact .inl (sameBce_trans hu (sameBce_trans (sameBce_of_faulted_access hfu hv) hs))
  · exact .inr ⟨i, he, hb, ht⟩

/-- Settles O38: the same BCE has the same record, a completion does not write it, and reset empties it. -/
theorem onlyResetClearsTheFaultRecord : Obligations.OnlyResetClearsTheFaultRecord := by
  intro s t hf h
  refine ⟨fun hr => ?_, fun hr => ?_⟩
  · rcases step_cases_of_fault hf hr h with hs | ⟨i, he, hb, rfl⟩
    · obtain ⟨_, _, _, rfl⟩ := eq_of_sameBce hs
      exact ⟨hf, rfl, rfl, fun _ => hs⟩
    · refine ⟨by simpa using hf, by simp, by simp, ?_⟩
      rintro (hn | hn)
      · exact absurd he hn
      · exact absurd (hb.symm.trans hn) (by decide)
  · rw [step, stepTurn, hr] at h
    cases h
    exact ⟨rfl, rfl, rfl⟩

/-! ### A fault while a command is in flight -/

/-- The check an access fails, and what it then was if that check is the lock's, the last one (20_memory R56). -/
theorem accessCheck_some {s : State} {x : Access} {f : FaultCode} (h : accessCheck s x = some f) :
    f = .misaligned ∨ f = .badAccess ∨ f = .busyAccess ∨
    (f = .lockedWrite ∧ x.dir = .write ∧ (s.busy = true → allowedWhileBusy x.dir x.addr = true) ∧
      (regionOf s.cfg x.addr x.size = some .key ∨ x.addr = offIdxoff)) := by
  unfold accessCheck at h
  split at h
  · cases h; exact .inl rfl
  split at h
  · cases h; exact .inr (.inl rfl)
  next r hr =>
  split at h
  · cases h; exact .inr (.inl rfl)
  split at h
  · cases h; exact .inr (.inl rfl)
  split at h
  · cases h; exact .inr (.inr (.inl rfl))
  next hbusy =>
  split at h
  next hlock =>
    obtain ⟨hd, _, hk⟩ := hlock
    cases h
    have hallowed (hb : s.busy = true) : allowedWhileBusy x.dir x.addr = true := by_contra fun hn => hbusy ⟨hb, hn⟩
    exact .inr (.inr (.inr ⟨rfl, hd, hallowed, hk.imp_left fun hkey => by rw [hr, hkey]⟩))
  · cases h

/-- While BUSY = 1 the lock's check is never the one that fails: the one write that passes BUSY's is IRQEN's (60_exceptions
R132). -/
theorem accessCheck_some_of_busy {s : State} {x : Access} {f : FaultCode} (hb : s.busy = true)
    (h : accessCheck s x = some f) : f = .busyAccess ∨ f = .badAccess ∨ f = .misaligned := by
  rcases accessCheck_some h with rfl | rfl | rfl | ⟨_, hd, hallowed, hk⟩
  · exact .inr (.inr rfl)
  · exact .inr (.inl rfl)
  · exact .inl rfl
  · have hirqen : x.addr = offIrqen := by simpa [allowedWhileBusy, hd] using hallowed hb
    rw [hirqen] at hk
    rcases hk with hkey | hidx
    · exact absurd (regionOf_key hkey).1 (by decide)
    · exact absurd hidx (by decide)

/-- No command's completion reads or writes the fault record, so it completes beside one as it would without (60_exceptions
R132). -/
theorem complete_recorded (i : Instr) (x : Access) (c : BitVec 8) (s : State) :
    complete (commandEffect i) (recorded x c s) = recorded x c (complete (commandEffect i) s) := by
  cases i <;> rfl

/-- Settles O44: the failed access leaves its record and nothing else, and the completion goes on beside it. -/
theorem commandInFlightSurvivesAFault : Obligations.CommandInFlightSurvivesAFault := by
  intro s u x f i hb hf hc hu
  rw [exec_of_busy i hb] at hu
  cases hu
  have hexec : exec i (recorded x f.code s) = .next (complete (commandEffect i) (recorded x f.code s)) :=
    exec_of_busy i hb
  exact ⟨accessCheck_some_of_busy hb hc, rfl, rfl, busAccess_of_fail hf hc, hexec.trans (by rw [complete_recorded])⟩

end Sys2Proof.Machine

/-! ## Reset (70_reset_and_hazards R146 to R149) -/

namespace Sys2Proof.Machine

/-- Settles O35: `State.reset` is the state after reset of one configuration among all. -/
theorem resetStatesMeetTheStateInvariant : Obligations.ResetStatesMeetTheStateInvariant :=
  ⟨resetOf_inv, resetOf_inv Config.hardware⟩

/-- A listed reset is the next step, with no look at the rest of the state (70_reset_and_hazards R146). -/
theorem step_of_reset {s : State} {rest : List Turn} (h : s.sched = .reset :: rest) :
    step s = .next (applyReset { s with sched := rest }) := step_of_sched h

/-- Settles O40: a listed reset leads to the state after reset, whose fields are the values of R146's table and whose empty
buffers read 0 at every byte. -/
theorem resetStepClearsEverything : Obligations.ResetStepClearsEverything := by
  intro s rest h
  have hbuf (j : Nat) : Memory.get [] j = 0 := rfl
  exact ⟨applyReset { s with sched := rest }, step_of_reset h, rfl, rfl, rfl, rfl, rfl, rfl, rfl, rfl, rfl, rfl, rfl, rfl,
    hbuf, hbuf, rfl, rfl, rfl, rfl, rfl, rfl⟩

end Sys2Proof.Machine
